-- ==== Sys2Proof/Word.lean ====
section
/-! DEFINITION. The word types of the Block: the 16-bit register value, the operand byte, the 32-bit command word
(00_scope R10, 10_state R14, 30_encoding R53). -/

namespace Sys2Proof

/-- An operand byte (`u8`, 00_scope R10). -/
abbrev Byte := BitVec 8

/-- A register value, a configuration word, the data port `D` or the result port `Y` (`u16`; an `s16` is the same bits
read by `BitVec.toInt`, 00_scope R10). -/
abbrev Word := BitVec 16

/-- The command word `CMD` (30_encoding R53). -/
abbrev CmdWord := BitVec 32

end Sys2Proof
end

