-- ==== Sys2Proof/Config.lean ====
section
/-! DEFINITION. What an implementation fixes (00_scope R8: the parameters and the `CodecTables`), the Environment's
answers as data, and the free values: opaque constants no proof can see into. -/

namespace Sys2Proof

/-- The two device variants (00_scope R2, 10_state R16). -/
inductive Variant where
  | lowRes
  | highRes
  deriving DecidableEq, Repr

/-- The four registers of an ADC device (10_state R25). -/
inductive Reg where
  | conv
  | config
  | loThresh
  | hiThresh
  deriving DecidableEq, Repr

/-- The fields of a configuration word that a config kind fixes (30_encoding R48, R49). -/
structure FixedBits where
  os : BitVec 1
  mode : BitVec 1
  cmode : BitVec 1
  cpol : BitVec 1
  clat : BitVec 1
  cque : BitVec 2
  deriving DecidableEq, Repr

/-- The nine fields of the configuration register (30_encoding R42). -/
structure ConfigFields where
  os : BitVec 1
  mux : BitVec 3
  pga : BitVec 3
  mode : BitVec 1
  dr : BitVec 3
  cmode : BitVec 1
  cpol : BitVec 1
  clat : BitVec 1
  cque : BitVec 2
  deriving DecidableEq, Repr

/-- The parameter `CodecTables` (00_scope R8, 30_encoding R44..R51; 92_eei_decisions D1): a model holds any
instantiation that meets the source's constraints (`CodecTables.wf`). -/
structure CodecTables where
  muxSe : List (BitVec 3)
  muxDiff : List (BitVec 3)
  gain : List (BitVec 3)
  rateLow : List (BitVec 3)
  rateHigh : List (BitVec 3)
  spsLow : List Nat
  spsHigh : List Nat
  readFixed : FixedBits
  compFixed : FixedBits
  ptrConv : BitVec 2
  ptrConfig : BitVec 2
  ptrLoThresh : BitVec 2
  ptrHiThresh : BitVec 2
  addrs : List (BitVec 7)
  deriving DecidableEq, Repr

/-- The order of a register's two bytes on the wire: the transport's, never applied in the Block (20_memory R31). -/
inductive WireByteOrder where
  | msbFirst
  | lsbFirst
  deriving DecidableEq, Repr

/-- The parameters of 00_scope R8 that outlive the creation of one handle. -/
structure Params where
  tables : CodecTables
  extDiffPairs : Bool
  initGain : Nat
  wireByteOrder : WireByteOrder
  deriving DecidableEq, Repr

/-- The Environment's answer to a `BusWrite` (00_scope R11). `takenAnyway` is read only when the write failed: whether
the device took it nevertheless (60_exceptions R101, U8). -/
structure WriteAnswer where
  ok : Bool
  takenAnyway : Bool
  deriving DecidableEq, Repr, Inhabited

/-- The Environment's answer to a `BusRead`: whether the bus transaction went through, how many bytes came back, and the
value (20_memory R33, 60_exceptions R102). -/
structure ReadAnswer where
  acked : Bool
  byteCount : Nat
  value : Word
  deriving DecidableEq, Repr, Inhabited

namespace Config

/-- FREE VALUE (log 7, 8): the answer to the n-th bus write that `State.env` does not fix (92_eei_decisions D14). -/
opaque freeWriteAnswer : Nat → WriteAnswer

/-- FREE VALUE (log 7): the answer to the n-th bus read that `State.env` does not fix (92_eei_decisions D14, D15). -/
opaque freeReadAnswer : Nat → ReadAnswer

/-- FREE VALUE (log 12): by how many milliseconds the n-th wait that `State.env` does not fix overshoots (U17). -/
opaque freeWaitExtra : Nat → Nat

/-- FREE VALUE (log 13): what a field-code table is taken to hold at an index outside it; no legal state reads it. -/
opaque freeCode : Nat → BitVec 3

/-- FREE VALUE (log 13): what a rate table is taken to hold at an index outside it; no legal state reads it. -/
opaque freeSps : Nat → Nat

end Config

end Sys2Proof
end

