-- ==== Sys2Proof/Syntax.lean ====
section
/-! DEFINITION. The 21 operations of 30_encoding R54, one constructor per row of spec/opcode_table.json, with their
operands as the numbers the operand bytes spell (R55..R57) and the data port `D` where the row reads it; and the
pseudo-operations of R61. -/

namespace Sys2Proof

/-- An input selector `SEL` (30_encoding R56): a single-ended channel or a differential pair, unchecked. -/
inductive Selector where
  | se (channel : Nat)
  | diff (pair : Nat)
  deriving DecidableEq, Repr

/-- An operation with its operands (30_encoding R54). -/
inductive Instr where
  | packGain (gain : Nat)
  | packInputSe (channel : Nat)
  | packInputDiff (pair : Nat)
  | packRate (variant rate : Nat)
  | buildReadConfig (gain : Nat) (sel : Selector) (dr : Nat)
  | buildComparatorConfig (gain : Nat) (sel : Selector) (dr : Nat)
  | decodeResult (shift : Nat) (raw : Word)
  | encodeThreshold (shift : Nat) (thr : Word)
  | samplesPerSecond
  | bitShift
  | rateRegisterBits
  | conversionDelay
  | setGain (gain : Nat)
  | getGain
  | setRate (rate : Nat)
  | getRate
  | getAddress
  | readSe (channel : Nat)
  | readDiff (pair : Nat)
  | startComparator (sel : Selector) (thr : Word)
  | getLastConversion
  deriving DecidableEq, Repr

/-- The pseudo-operations of 30_encoding R61. -/
inductive Pseudo where
  | readDiff01
  | readDiff03
  | readDiff13
  | readDiff23
  | startComparatorSe (channel : Nat) (thr : Word)
  | readConfigDefault (gain : Nat) (sel : Selector)
  deriving DecidableEq, Repr

end Sys2Proof
end

