-- ==== Sys2Proof/WellFormed.lean ====
section
/-! DEFINITION. Which terms of `Instr` a command word can spell: an operand byte is a `u8` (30_encoding R55..R57), a
selector's channel or pair is its low seven bits (R56). An out-of-range but spellable operand is well formed: the
operation itself refuses it with a status (R58 (c)). -/

namespace Sys2Proof

/-- An operand byte can spell the number. -/
def isByte (n : Nat) : Bool := n < 256

/-- `SEL[6:0]` can spell the selector's channel or pair (30_encoding R56). -/
def Selector.wellFormed : Selector → Bool
  | .se ch => ch < 128
  | .diff p => p < 128

/-- The instruction has a command word. -/
def Instr.wellFormed : Instr → Bool
  | .packGain g => isByte g
  | .packInputSe ch => isByte ch
  | .packInputDiff p => isByte p
  | .packRate v i => isByte v && isByte i
  | .buildReadConfig g sel r => isByte g && sel.wellFormed && isByte r
  | .buildComparatorConfig g sel r => isByte g && sel.wellFormed && isByte r
  | .decodeResult k _ => isByte k
  | .encodeThreshold k _ => isByte k
  | .samplesPerSecond => true
  | .bitShift => true
  | .rateRegisterBits => true
  | .conversionDelay => true
  | .setGain g => isByte g
  | .getGain => true
  | .setRate i => isByte i
  | .getRate => true
  | .getAddress => true
  | .readSe ch => isByte ch
  | .readDiff p => isByte p
  | .startComparator sel _ => sel.wellFormed
  | .getLastConversion => true

end Sys2Proof
end

