-- ==== Sys2Proof/Decode.lean ====
section
/-! DEFINITION. The command word (30_encoding Part B): the total decoder with its two named rejections, the encoder, the
opcode table as mask and match words, the pseudo-operations and the assembler text. -/

namespace Sys2Proof

/-- Why a command word is no operation (30_encoding R58 (a), (b)); either way it raises `IllegalOperation`. -/
inductive DecodeError where
  /-- (a): `OP` is not in the opcode map. -/
  | unassignedOpcode
  /-- (b): a byte the operation's row marks 0 is nonzero. -/
  | reservedByteNonzero
  deriving DecidableEq, Repr

/-- What travels on the input ports: the command word and the data port (10_state R14). -/
structure Packet where
  cmd : CmdWord
  d : Word
  deriving DecidableEq, Repr

/-! ## Fields of the command word (30_encoding R53) -/

def opOf (cmd : CmdWord) : Nat := (cmd.extractLsb' 24 8).toNat
def fieldA (cmd : CmdWord) : Nat := (cmd.extractLsb' 16 8).toNat
def fieldB (cmd : CmdWord) : Nat := (cmd.extractLsb' 8 8).toNat
def fieldC (cmd : CmdWord) : Nat := (cmd.extractLsb' 0 8).toNat

/-- `SEL[7]` picks the kind and `SEL[6:0]` is the channel or pair (30_encoding R56). -/
def selectorOf (b : Nat) : Selector := if b < 128 then .se b else .diff (b - 128)

/-- The operation, provided the bytes its row marks 0 are zero (30_encoding R58 (b)). -/
def whenZero (reserved : List Nat) (i : Instr) : Except DecodeError Instr :=
  if reserved.all (· == 0) then .ok i else .error .reservedByteNonzero

/-- The decoder over the fields of a command word (30_encoding R54, R58). -/
def decodeFields (op a b c : Nat) (d : Word) : Except DecodeError Instr :=
  match op with
  | 0x01 => whenZero [b, c] (.packGain a)
  | 0x02 => whenZero [b, c] (.packInputSe a)
  | 0x03 => whenZero [b, c] (.packInputDiff a)
  | 0x04 => whenZero [c] (.packRate a b)
  | 0x05 => whenZero [] (.buildReadConfig a (selectorOf b) c)
  | 0x06 => whenZero [] (.buildComparatorConfig a (selectorOf b) c)
  | 0x07 => whenZero [b, c] (.decodeResult a d)
  | 0x08 => whenZero [b, c] (.encodeThreshold a d)
  | 0x10 => whenZero [a, b, c] .samplesPerSecond
  | 0x11 => whenZero [a, b, c] .bitShift
  | 0x12 => whenZero [a, b, c] .rateRegisterBits
  | 0x13 => whenZero [a, b, c] .conversionDelay
  | 0x20 => whenZero [b, c] (.setGain a)
  | 0x21 => whenZero [a, b, c] .getGain
  | 0x22 => whenZero [b, c] (.setRate a)
  | 0x23 => whenZero [a, b, c] .getRate
  | 0x24 => whenZero [a, b, c] .getAddress
  | 0x30 => whenZero [b, c] (.readSe a)
  | 0x31 => whenZero [b, c] (.readDiff a)
  | 0x32 => whenZero [b, c] (.startComparator (selectorOf a) d)
  | 0x33 => whenZero [a, b, c] .getLastConversion
  | _ => .error .unassignedOpcode

/-- The decoder (30_encoding R54, R58, R59): total on every command word and data port. -/
def decode (cmd : CmdWord) (d : Word) : Except DecodeError Instr :=
  decodeFields (opOf cmd) (fieldA cmd) (fieldB cmd) (fieldC cmd) d

/-! ## The encoder -/

/-- `CMD` from its four bytes (30_encoding R53). -/
def cmdWord (op a b c : Nat) : CmdWord :=
  BitVec.ofNat 8 op ++ (BitVec.ofNat 8 a ++ (BitVec.ofNat 8 b ++ BitVec.ofNat 8 c))

/-- The selector byte `SEL` (30_encoding R56). -/
def Selector.toByte : Selector → Nat
  | .se ch => ch
  | .diff p => 128 + p

/-- The command word and the data port of an operation; a port the row ignores is sent as zero (30_encoding R54). -/
def encode : Instr → Packet
  | .packGain g => ⟨cmdWord 0x01 g 0 0, 0⟩
  | .packInputSe ch => ⟨cmdWord 0x02 ch 0 0, 0⟩
  | .packInputDiff p => ⟨cmdWord 0x03 p 0 0, 0⟩
  | .packRate v i => ⟨cmdWord 0x04 v i 0, 0⟩
  | .buildReadConfig g sel r => ⟨cmdWord 0x05 g sel.toByte r, 0⟩
  | .buildComparatorConfig g sel r => ⟨cmdWord 0x06 g sel.toByte r, 0⟩
  | .decodeResult k raw => ⟨cmdWord 0x07 k 0 0, raw⟩
  | .encodeThreshold k t => ⟨cmdWord 0x08 k 0 0, t⟩
  | .samplesPerSecond => ⟨cmdWord 0x10 0 0 0, 0⟩
  | .bitShift => ⟨cmdWord 0x11 0 0 0, 0⟩
  | .rateRegisterBits => ⟨cmdWord 0x12 0 0 0, 0⟩
  | .conversionDelay => ⟨cmdWord 0x13 0 0 0, 0⟩
  | .setGain g => ⟨cmdWord 0x20 g 0 0, 0⟩
  | .getGain => ⟨cmdWord 0x21 0 0 0, 0⟩
  | .setRate i => ⟨cmdWord 0x22 i 0 0, 0⟩
  | .getRate => ⟨cmdWord 0x23 0 0 0, 0⟩
  | .getAddress => ⟨cmdWord 0x24 0 0 0, 0⟩
  | .readSe ch => ⟨cmdWord 0x30 ch 0 0, 0⟩
  | .readDiff p => ⟨cmdWord 0x31 p 0 0, 0⟩
  | .startComparator sel t => ⟨cmdWord 0x32 sel.toByte 0 0, t⟩
  | .getLastConversion => ⟨cmdWord 0x33 0 0 0, 0⟩

/-- The rows whose `D` column is not "ignored" (30_encoding R54, R58 (d)). -/
def Instr.readsD : Instr → Bool
  | .decodeResult _ _ => true
  | .encodeThreshold _ _ => true
  | .startComparator _ _ => true
  | .packGain _ | .packInputSe _ | .packInputDiff _ | .packRate _ _ | .buildReadConfig _ _ _
  | .buildComparatorConfig _ _ _ | .samplesPerSecond | .bitShift | .rateRegisterBits | .conversionDelay
  | .setGain _ | .getGain | .setRate _ | .getRate | .getAddress | .readSe _ | .readDiff _
  | .getLastConversion => false

/-! ## The opcode table as mask and match words -/

/-- One row: a word is the row's operation exactly when the masked word is the match word. -/
structure OpcodeRow where
  mnemonic : String
  matchWord : CmdWord
  mask : CmdWord
  deriving DecidableEq, Repr

/-- The rows of 30_encoding R54 with the mask that its `0` columns make. -/
def opcodeTable : List OpcodeRow :=
  [⟨"PACK_GAIN", 0x01000000, 0xFF00FFFF⟩, ⟨"PACK_INPUT_SE", 0x02000000, 0xFF00FFFF⟩,
   ⟨"PACK_INPUT_DIFF", 0x03000000, 0xFF00FFFF⟩, ⟨"PACK_RATE", 0x04000000, 0xFF0000FF⟩,
   ⟨"BUILD_READ_CONFIG", 0x05000000, 0xFF000000⟩, ⟨"BUILD_COMPARATOR_CONFIG", 0x06000000, 0xFF000000⟩,
   ⟨"DECODE_RESULT", 0x07000000, 0xFF00FFFF⟩, ⟨"ENCODE_THRESHOLD", 0x08000000, 0xFF00FFFF⟩,
   ⟨"SAMPLES_PER_SECOND", 0x10000000, 0xFFFFFFFF⟩, ⟨"BIT_SHIFT", 0x11000000, 0xFFFFFFFF⟩,
   ⟨"RATE_REGISTER_BITS", 0x12000000, 0xFFFFFFFF⟩, ⟨"CONVERSION_DELAY", 0x13000000, 0xFFFFFFFF⟩] ++
  [⟨"SET_GAIN", 0x20000000, 0xFF00FFFF⟩, ⟨"GET_GAIN", 0x21000000, 0xFFFFFFFF⟩,
   ⟨"SET_RATE", 0x22000000, 0xFF00FFFF⟩, ⟨"GET_RATE", 0x23000000, 0xFFFFFFFF⟩,
   ⟨"GET_ADDRESS", 0x24000000, 0xFFFFFFFF⟩, ⟨"READ_SE", 0x30000000, 0xFF00FFFF⟩,
   ⟨"READ_DIFF", 0x31000000, 0xFF00FFFF⟩, ⟨"START_COMPARATOR", 0x32000000, 0xFF00FFFF⟩,
   ⟨"GET_LAST_CONVERSION", 0x33000000, 0xFFFFFFFF⟩]

/-- The row's name of an operation (30_encoding R54). -/
def Instr.mnemonic : Instr → String
  | .packGain _ => "PACK_GAIN"
  | .packInputSe _ => "PACK_INPUT_SE"
  | .packInputDiff _ => "PACK_INPUT_DIFF"
  | .packRate _ _ => "PACK_RATE"
  | .buildReadConfig _ _ _ => "BUILD_READ_CONFIG"
  | .buildComparatorConfig _ _ _ => "BUILD_COMPARATOR_CONFIG"
  | .decodeResult _ _ => "DECODE_RESULT"
  | .encodeThreshold _ _ => "ENCODE_THRESHOLD"
  | .samplesPerSecond => "SAMPLES_PER_SECOND"
  | .bitShift => "BIT_SHIFT"
  | .rateRegisterBits => "RATE_REGISTER_BITS"
  | .conversionDelay => "CONVERSION_DELAY"
  | .setGain _ => "SET_GAIN"
  | .getGain => "GET_GAIN"
  | .setRate _ => "SET_RATE"
  | .getRate => "GET_RATE"
  | .getAddress => "GET_ADDRESS"
  | .readSe _ => "READ_SE"
  | .readDiff _ => "READ_DIFF"
  | .startComparator _ _ => "START_COMPARATOR"
  | .getLastConversion => "GET_LAST_CONVERSION"

/-! ## Pseudo-operations and assembler text -/

/-- Each pseudo-operation is exactly one operation (30_encoding R61). -/
def Pseudo.expand : Pseudo → Instr
  | .readDiff01 => .readDiff 0
  | .readDiff03 => .readDiff 1
  | .readDiff13 => .readDiff 2
  | .readDiff23 => .readDiff 3
  | .startComparatorSe ch thr => .startComparator (.se ch) thr
  | .readConfigDefault g sel => .buildReadConfig g sel 4

/-- `se(n)` or `diff(p)` (30_encoding R60). -/
def Selector.asm : Selector → String
  | .se ch => "se(" ++ toString ch ++ ")"
  | .diff p => "diff(" ++ toString p ++ ")"

/-- `lowres` (0) or `highres` (1) (30_encoding R60); any other variant byte is written as its number. -/
def variantAsm : Nat → String
  | 0 => "lowres"
  | 1 => "highres"
  | v => toString v

/-- The operands in the order `A`, `B`, `C`, `D`, without the bytes marked 0 and without an ignored `D`; numbers are
decimal and a threshold is signed (30_encoding R60). -/
def Instr.asmOperands : Instr → List String
  | .packGain g => [toString g]
  | .packInputSe ch => [toString ch]
  | .packInputDiff p => [toString p]
  | .packRate v i => [variantAsm v, toString i]
  | .buildReadConfig g sel r => [toString g, sel.asm, toString r]
  | .buildComparatorConfig g sel r => [toString g, sel.asm, toString r]
  | .decodeResult k raw => [toString k, toString raw.toNat]
  | .encodeThreshold k t => [toString k, toString t.toInt]
  | .samplesPerSecond => []
  | .bitShift => []
  | .rateRegisterBits => []
  | .conversionDelay => []
  | .setGain g => [toString g]
  | .getGain => []
  | .setRate i => [toString i]
  | .getRate => []
  | .getAddress => []
  | .readSe ch => [toString ch]
  | .readDiff p => [toString p]
  | .startComparator sel t => [sel.asm, toString t.toInt]
  | .getLastConversion => []

/-- `MNEMONIC op1, op2, ...` (30_encoding R60). -/
def Instr.asm (i : Instr) : String :=
  match i.asmOperands with
  | [] => i.mnemonic
  | ops => i.mnemonic ++ " " ++ ", ".intercalate ops

/-! ## The host's numbering of an instruction's bits -/

/-- The packet whose bits 31..0 are `CMD` and whose bits 47..32 are the data port `D` (log 20); bits from `nbits` up are
zero. -/
def packetOfBits (nbits w : Nat) : Packet :=
  let bits := w % 2 ^ nbits
  ⟨BitVec.ofNat 32 bits, BitVec.ofNat 16 (bits / 2 ^ 32)⟩

/-- The instruction the decoder reads from an opcode-table word. -/
def decodeTableWord (nbits w : Nat) : Option Instr :=
  match decode (packetOfBits nbits w).cmd (packetOfBits nbits w).d with
  | .ok i => some i
  | .error _ => none

end Sys2Proof
end

