-- ==== Sys2Proof/Machine/Tables.lean ====
section
/-! DEFINITION. The default instantiation of the parameters (30_encoding R44..R51), the source's constraints on any
instantiation (92_eei_decisions D1), and the lookups of 41_variant_tables R75, R76, R80. -/

namespace Sys2Proof.Machine

/-! ## The default instantiation -/

/-- `READ_FIXED` (30_encoding R48). -/
def defaultReadFixed : FixedBits := ⟨1, 1, 0, 0, 0, 0b11⟩

/-- `COMP_FIXED` (30_encoding R49). -/
def defaultCompFixed : FixedBits := ⟨0, 0, 0, 0, 1, 0b00⟩

/-- The default `CodecTables` (30_encoding R44..R51; 93_implementation_defined G1..G6). -/
def defaultTables : CodecTables where
  muxSe := [0b100, 0b101, 0b110, 0b111]
  muxDiff := [0b000, 0b001, 0b010, 0b011]
  gain := [0b000, 0b001, 0b010, 0b011, 0b100, 0b101]
  rateLow := [0b000, 0b001, 0b010, 0b011, 0b100, 0b101, 0b110]
  rateHigh := [0b000, 0b001, 0b010, 0b011, 0b100, 0b101, 0b110, 0b111]
  spsLow := [128, 250, 490, 920, 1600, 2400, 3300]
  spsHigh := [8, 16, 32, 64, 128, 250, 475, 860]
  readFixed := defaultReadFixed
  compFixed := defaultCompFixed
  ptrConv := 0
  ptrConfig := 1
  ptrLoThresh := 2
  ptrHiThresh := 3
  addrs := [0x48, 0x49, 0x4A, 0x4B]

/-- The default parameters: `EXT_DIFF_PAIRS = true` (00_scope R8), `INIT_GAIN` and `WIRE_BYTE_ORDER` as logs 3 and 6 say. -/
def defaultParams : Params where
  tables := defaultTables
  extDiffPairs := true
  initGain := 0
  wireByteOrder := .msbFirst

/-! ## Lookups -/

/-- The number of sample rates of a variant (41_variant_tables R75). -/
def rateCount : Variant → Nat
  | .lowRes => 7
  | .highRes => 8

/-- The bit-shift of a variant (41_variant_tables R75, R78). -/
def shiftOf : Variant → Nat
  | .lowRes => 4
  | .highRes => 0

/-- The default rate of a variant in samples per second (41_variant_tables R75). -/
def defaultSps : Variant → Nat
  | .lowRes => 1600
  | .highRes => 128

/-- The lowest and highest rate of a variant (30_encoding R46, R47). -/
def spsRange : Variant → Nat × Nat
  | .lowRes => (128, 3300)
  | .highRes => (8, 860)

/-- `RATE_CODE[v]` (41_variant_tables R76). -/
def rateCodes (T : CodecTables) : Variant → List (BitVec 3)
  | .lowRes => T.rateLow
  | .highRes => T.rateHigh

/-- `SPS[v]` (41_variant_tables R76). -/
def spsList (T : CodecTables) : Variant → List Nat
  | .lowRes => T.spsLow
  | .highRes => T.spsHigh

/-- The entry of a field-code table; outside it a free value (log 13). -/
def codeAt (codes : List (BitVec 3)) (i : Nat) : BitVec 3 := codes.getD i (Config.freeCode i)

/-- `MUX_SE[ch]` (30_encoding R44). -/
def muxSeCode (T : CodecTables) (ch : Nat) : BitVec 3 := codeAt T.muxSe ch

/-- `MUX_DIFF[p]` (30_encoding R44). -/
def muxDiffCode (T : CodecTables) (p : Nat) : BitVec 3 := codeAt T.muxDiff p

/-- `GAIN_CODE[g]` (30_encoding R45). -/
def gainCode (T : CodecTables) (g : Nat) : BitVec 3 := codeAt T.gain g

/-- `RATE_CODE[v][i]` (30_encoding R46, R47). -/
def rateCode (T : CodecTables) (v : Variant) (i : Nat) : BitVec 3 := codeAt (rateCodes T v) i

/-- `SPS[v][i]` (30_encoding R46, R47); outside the table a free value (log 13). -/
def sps (T : CodecTables) (v : Variant) (i : Nat) : Nat := (spsList T v).getD i (Config.freeSps i)

/-- The index that has the variant's default rate (41_variant_tables R75). -/
def defaultRate (T : CodecTables) (v : Variant) : Nat := (spsList T v).idxOf (defaultSps v)

/-- `ceil_div(a, b)` (00_scope R10). -/
def ceilDiv (a b : Nat) : Nat := (a + b - 1) / b

/-- `conversionDelay(v, i)` in milliseconds (41_variant_tables R80). -/
def conversionDelay (T : CodecTables) (v : Variant) (i : Nat) : Nat := ceilDiv 1000 (sps T v i) + 1

/-- The pointer value of a register (30_encoding R50). -/
def ptrOf (T : CodecTables) : Reg → BitVec 2
  | .conv => T.ptrConv
  | .config => T.ptrConfig
  | .loThresh => T.ptrLoThresh
  | .hiThresh => T.ptrHiThresh

/-! ## The constraints on an instantiation -/

/-- A variant's rate tables: the source's count of discrete rates, in ascending order (D3), with its endpoints and its default
rate, and one code a rate (30_encoding R46, R47). DESIGN CHOICE (log 33): no code is barred, so a `LowRes` table other than
the default one may hold code 111, which R46, R58 (f) and 41_variant_tables R79 say is never produced. -/
abbrev ratesWf (T : CodecTables) (v : Variant) : Prop :=
  (rateCodes T v).length = rateCount v ∧ (rateCodes T v).Nodup ∧
  (spsList T v).length = rateCount v ∧ (spsList T v).Pairwise (· < ·) ∧
  (spsRange v).1 ∈ spsList T v ∧ (spsRange v).2 ∈ spsList T v ∧ defaultSps v ∈ spsList T v ∧
  ∀ r ∈ spsList T v, (spsRange v).1 ≤ r ∧ r ≤ (spsRange v).2

/-- The source's constraints on any instantiation of `CodecTables` (30_encoding R44..R51, D1; log 26). A read word carries the
start bit (R48) and a comparator word does not (R49). No gain code is barred either: `PGA` 110 and 111 (R45; log 33). -/
abbrev tablesWf (T : CodecTables) : Prop :=
  T.muxSe.length = 4 ∧ T.muxDiff.length = 4 ∧ (T.muxSe ++ T.muxDiff).Nodup ∧
  T.gain.length = 6 ∧ T.gain.Nodup ∧
  ratesWf T .lowRes ∧ ratesWf T .highRes ∧
  T.readFixed.os = 1 ∧ T.compFixed.os = 0 ∧ T.readFixed.mode ≠ T.compFixed.mode ∧ T.readFixed.cque ≠ T.compFixed.cque ∧
  [T.ptrConv, T.ptrConfig, T.ptrLoThresh, T.ptrHiThresh].Nodup ∧
  T.addrs.length = 4 ∧ T.addrs.Nodup

/-- Legal parameters: legal tables and `INIT_GAIN` a gain index 0..5 (00_scope R8). -/
abbrev paramsWf (P : Params) : Prop := tablesWf P.tables ∧ P.initGain ≤ 5

end Sys2Proof.Machine
end

