-- ==== Sys2Proof/Machine/Types.lean ====
section
/-! DEFINITION. The parts of the machine's state as plain data: the status codes (60_exceptions R99), the sequencer phase
(10_state R21), the bus events (10_state R27), a Device Handle (10_state R16..R21, R15), the Caller's requests
(00_scope R6) and the Environment's answers (92_eei_decisions D14). -/

namespace Sys2Proof.Machine

/-- The status an operation ends with (60_exceptions R99). -/
inductive Status where
  | ok
  | invalidChannel
  | busWriteFailed
  | busReadFailed
  | illegalOperation
  | invalidOperand
  | thresholdOutOfRange
  deriving DecidableEq, Repr

/-- The writes an operation in `Configuring` still has to do. A mux field or a threshold word is a validated operand of
the running operation; the configuration word is no part of it (10_state R24). -/
inductive Pending where
  /-- `READ_SE`, `READ_DIFF`: the configuration write, with the positioned mux bits (42_protocol R90, R91). -/
  | readConfig (mux : Word)
  /-- `START_COMPARATOR`: both writes (42_protocol R92). -/
  | armHigh (mux hi : Word)
  /-- `START_COMPARATOR` after its first write. -/
  | armConfig (mux : Word)
  deriving DecidableEq, Repr

/-- The sequencer phase (10_state R21). -/
inductive Phase where
  | idle
  | configuring (todo : Pending)
  | converting
  | reading
  deriving DecidableEq, Repr

/-- A bus event (10_state R27), with the bus it was on (10_state R18; log 27). -/
inductive Event where
  | write (transport : Nat) (addr : BitVec 7) (ptr : BitVec 2) (value : Word) (ok : Bool)
  | read (transport : Nat) (addr : BitVec 7) (ptr : BitVec 2) (ok : Bool) (value : Word)
  | wait (ms : Nat)
  deriving DecidableEq, Repr

/-- A Device Handle: one Block (10_state R16..R21, 60_exceptions R113), with its output ports `S` and `Y` (10_state R15)
and its bus event log, oldest first (10_state R27, R28; one for each handle: log 31). `none` in a port is the spec's own
"holds no value" (00_scope R12). -/
structure Handle where
  variant : Variant
  addr : BitVec 7
  transport : Nat
  gain : Nat
  rate : Nat
  phase : Phase
  status : Option Status
  result : Option Word
  log : List Event
  deriving DecidableEq, Repr

/-- What the Caller asks for, of handle 0 or of a further handle by its number (00_scope R6; log 15). -/
inductive Request where
  /-- An operation on the input ports: `CMD` and `D` (10_state R14). -/
  | operation (handle : Nat) (cmd : CmdWord) (d : Word)
  /-- The Caller reads the result port `Y` (00_scope R12). -/
  | readResult (handle : Nat)
  /-- The Caller creates a further handle (70_reset_and_hazards R116). -/
  | create (variant : Variant) (addr : BitVec 7) (transport : Nat)
  deriving DecidableEq, Repr

/-- The Environment's answers, oldest first, and how many free draws of each kind were taken (92_eei_decisions D14;
log 7). The MODEL's own field. -/
structure Environment where
  writeAnswers : List WriteAnswer
  readAnswers : List ReadAnswer
  waitExtras : List Nat
  writeDraws : Nat
  readDraws : Nat
  waitDraws : Nat
  deriving DecidableEq, Repr

/-- The device register space: (key, register) pairs, keys strictly rising, one whole 16-bit register a cell
(20_memory R29, R32; logs 9, 10). -/
abbrev Memory := List (Nat × Word)

end Sys2Proof.Machine
end

