-- ==== Sys2Proof/Machine/Create.lean ====
section
/-! DEFINITION. Handle creation, which is reset (70_reset_and_hazards R116), and the creation arguments of
`State.reset` (log 2). -/

namespace Sys2Proof.Machine

/-- The handle that creation sets up, with an empty bus log (70_reset_and_hazards R116). -/
def newHandle (P : Params) (v : Variant) (addr : BitVec 7) (transport : Nat) : Handle where
  variant := v
  addr := addr
  transport := transport
  gain := P.initGain
  rate := defaultRate P.tables v
  phase := .idle
  status := none
  result := none
  log := []

/-- Creation, refused for an address outside `ADDR_TABLE` (70_reset_and_hazards R116, D28). -/
def createHandle (P : Params) (v : Variant) (addr : BitVec 7) (transport : Nat) : Option Handle :=
  if addr ∈ P.tables.addrs then some (newHandle P v addr transport) else none

/-- DESIGN CHOICE (log 2): the creation arguments of the handle that `State.reset` holds. -/
def resetVariant : Variant := .lowRes

/-- DESIGN CHOICE (log 2). -/
def resetAddr : BitVec 7 := 0x48

/-- DESIGN CHOICE (log 2). -/
def resetTransport : Nat := 0

/-- No answer is fixed and no draw was taken (log 7). -/
def freshEnvironment : Environment := ⟨[], [], [], 0, 0, 0⟩

end Sys2Proof.Machine
end

