-- ==== Sys2Proof/Machine/State.lean ====
section
/-! DEFINITION. The machine's state, the reasons a step can stop, and the state after reset (10_state R28,
70_reset_and_hazards R116). -/

namespace Sys2Proof.Machine

/-- The whole state (10_state R28): the handle the machine runs and the further handles, each with its own bus log; what
the Caller presents; the device registers; the parameters, which no step writes; and the model's own Environment and
clock. -/
@[ext]
structure State where
  params : Params
  h : Handle
  peers : List Handle
  requests : List Request
  devRegs : Memory
  env : Environment
  elapsed : Nat
  deriving DecidableEq, Repr

/-- Why a step stops with a fault. -/
inductive Fault where
  /-- Raised by `step` when the Caller reads `Y` and it holds no value (00_scope R12, U6). Safe. -/
  | resultAbsent
  deriving DecidableEq, Repr

/-- Why a step is refused. -/
inductive Refusal where
  /-- An operation without a meaning: no arm of `exec` answers it. Safe. -/
  | notModelled (mnemonic : String)
  /-- Raised by `step` for a request that names a handle never created (log 16). Safe. -/
  | noSuchHandle
  deriving DecidableEq, Repr

/-- Reset is the creation of handle 0 (70_reset_and_hazards R116): no traffic, no value on the ports, an empty bus log. The
creation arguments, the initial gain and the tables are those of logs 2, 3 and 4. -/
def State.reset : State where
  params := defaultParams
  h := newHandle defaultParams resetVariant resetAddr resetTransport
  peers := []
  requests := []
  devRegs := []
  env := freshEnvironment
  elapsed := 0

end Sys2Proof.Machine
end

