-- ==== Sys2Proof/Machine/Memory.lean ====
section
/-! DEFINITION. The device register space as a store (20_memory R29, R41): whole 16-bit registers (R32) under the key of
(transport, 7-bit address, 2-bit pointer), in one canonical form. -/

namespace Sys2Proof.Machine

/-- The key of a device register: bus, then address, then pointer (10_state R18, 20_memory R29; log 10). -/
def devKey (transport : Nat) (addr : BitVec 7) (ptr : BitVec 2) : Nat :=
  (transport * 128 + addr.toNat) * 4 + ptr.toNat

/-- The canonical form: keys strictly rising. An unlisted register holds no known value (R117), so no listed entry can
equal it. -/
abbrev Memory.wf (m : Memory) : Prop := m.Pairwise (fun a b => a.1 < b.1)

/-- The last value known to have been written; `none` where nothing is known (70_reset_and_hazards R117; log 9). -/
def Memory.read : Memory → Nat → Option Word
  | [], _ => none
  | (k, v) :: rest, key => if key = k then some v else Memory.read rest key

/-- A whole register is replaced (20_memory R32), the canonical form kept. -/
def Memory.write : Memory → Nat → Word → Memory
  | [], key, w => [(key, w)]
  | (k, v) :: rest, key, w =>
    if key < k then (key, w) :: (k, v) :: rest
    else if key = k then (k, w) :: rest
    else (k, v) :: Memory.write rest key w

end Sys2Proof.Machine
end

