-- ==== Sys2Proof/Machine/Flags.lean ====
section
/-! DEFINITION. There are no flags (10_state R23). What an operation reports is the status on port `S`; its 8-bit codes
are here (60_exceptions R99). -/

namespace Sys2Proof.Machine

/-- The code on port `S` (60_exceptions R99). -/
def Status.code : Status → Byte
  | .ok => 0x00
  | .invalidChannel => 0x01
  | .busWriteFailed => 0x02
  | .busReadFailed => 0x03
  | .illegalOperation => 0x10
  | .invalidOperand => 0x11
  | .thresholdOutOfRange => 0x12

/-- The status with a code; the other codes are never produced (60_exceptions R99). -/
def statusOfCode (c : Byte) : Option Status :=
  [Status.ok, .invalidChannel, .busWriteFailed, .busReadFailed, .illegalOperation, .invalidOperand,
    .thresholdOutOfRange].find? (fun st => st.code == c)

/-- What port `S` holds: an 8-bit code or no value (10_state R15). -/
def State.portS (s : State) : Option Byte := s.h.status.map Status.code

end Sys2Proof.Machine
end

