-- ==== Sys2Proof/Machine/Operands.lean ====
section
/-! DEFINITION. The pure codec (40_codec): operand checks, field packing, configuration words, result decoding and
threshold encoding, each answering a value or the status it raises; and the field decoders of 30_encoding R62. -/

namespace Sys2Proof.Machine

/-! ## The configuration word -/

/-- A 3-bit code at its place in the word. -/
def positioned (code : BitVec 3) (pos : Nat) : Word := (code.setWidth 16) <<< pos

/-- `word(f)` (30_encoding R43). -/
def configWord (f : ConfigFields) : Word :=
  (f.os.setWidth 16 <<< 15) ||| positioned f.mux 12 ||| positioned f.pga 9 ||| (f.mode.setWidth 16 <<< 8) |||
  positioned f.dr 5 ||| (f.cmode.setWidth 16 <<< 4) ||| (f.cpol.setWidth 16 <<< 3) ||| (f.clat.setWidth 16 <<< 2) |||
  f.cque.setWidth 16

/-- `fieldsOf(w)` (30_encoding R43). -/
def fieldsOf (w : Word) : ConfigFields where
  os := w.extractLsb' 15 1
  mux := w.extractLsb' 12 3
  pga := w.extractLsb' 9 3
  mode := w.extractLsb' 8 1
  dr := w.extractLsb' 5 3
  cmode := w.extractLsb' 4 1
  cpol := w.extractLsb' 3 1
  clat := w.extractLsb' 2 1
  cque := w.extractLsb' 0 2

/-- The fixed part of a configuration kind, `READ_FIXED` or `COMP_FIXED` (30_encoding R48, R49). -/
def fixedWord (b : FixedBits) : Word := configWord ⟨b.os, 0, 0, b.mode, 0, b.cmode, b.cpol, b.clat, b.cque⟩

/-- `GAIN_CODE[g] << 9` (40_codec R63). -/
def gainField (T : CodecTables) (g : Nat) : Word := positioned (gainCode T g) 9

/-- `RATE_CODE[v][i] << 5` (40_codec R66, 41_variant_tables R79). -/
def rateField (T : CodecTables) (v : Variant) (i : Nat) : Word := positioned (rateCode T v i) 5

/-! ## Field packers -/

/-- `packGain` (40_codec R63, 30_encoding R55). -/
def packGain (T : CodecTables) (g : Nat) : Except Status Word :=
  if g > 5 then .error .invalidOperand else .ok (gainField T g)

/-- `packInputSingleEnded` (40_codec R64). -/
def packInputSe (T : CodecTables) (ch : Nat) : Except Status Word :=
  if ch > 3 then .error .invalidChannel else .ok (positioned (muxSeCode T ch) 12)

/-- `packInputDifferential` (40_codec R65): pairs 1 and 2 exist only with `EXT_DIFF_PAIRS`. -/
def packInputDiff (P : Params) (p : Nat) : Except Status Word :=
  if p > 3 then .error .invalidOperand
  else if (p = 1 ∨ p = 2) ∧ P.extDiffPairs = false then .error .invalidOperand
  else .ok (positioned (muxDiffCode P.tables p) 12)

/-- The variant a variant byte names (30_encoding R57). -/
def variantOf : Nat → Option Variant
  | 0 => some .lowRes
  | 1 => some .highRes
  | _ => none

/-- `packSampleRate` (40_codec R66): the variant is checked first. -/
def packRate (T : CodecTables) (v i : Nat) : Except Status Word :=
  match variantOf v with
  | none => .error .invalidOperand
  | some v => if i ≥ rateCount v then .error .invalidOperand else .ok (rateField T v i)

/-- `resolveInput(SEL)` (30_encoding R56). -/
def resolveInput (P : Params) : Selector → Except Status Word
  | .se ch => packInputSe P.tables ch
  | .diff p => packInputDiff P p

/-! ## Configuration-word builders -/

/-- The OR of a fixed part and the three packed fields, the operands checked in the order `A`, `B`, `C`
(40_codec R67, R68; 60_exceptions R106). -/
def buildConfig (b : FixedBits) (P : Params) (g : Nat) (sel : Selector) (r : Nat) : Except Status Word :=
  if g > 5 then .error .invalidOperand
  else match resolveInput P sel with
    | .error e => .error e
    | .ok m =>
      if r > 7 then .error .invalidOperand
      else .ok (fixedWord b ||| m ||| gainField P.tables g ||| positioned (BitVec.ofNat 3 r) 5)

/-- `buildReadConfig` (40_codec R67). -/
def buildReadConfig (P : Params) (g : Nat) (sel : Selector) (r : Nat) : Except Status Word :=
  buildConfig P.tables.readFixed P g sel r

/-- `buildComparatorConfig` (40_codec R68). -/
def buildComparatorConfig (P : Params) (g : Nat) (sel : Selector) (r : Nat) : Except Status Word :=
  buildConfig P.tables.compFixed P g sel r

/-- The word a sequenced path writes to `CONFIG` (42_protocol R90..R92): the fixed part, the mux field and the handle's
gain and rate. -/
def handleConfig (b : FixedBits) (T : CodecTables) (h : Handle) (mux : Word) : Word :=
  fixedWord b ||| mux ||| gainField T h.gain ||| rateField T h.variant h.rate

/-! ## Result decoding and threshold encoding -/

/-- The formula of `decodeResult` for an admitted shift (40_codec R69); the `s16` result is these bits. -/
def decodeWord (shift : Nat) (raw : Word) : Word :=
  if shift = 0 then raw
  else
    let v := raw >>> shift
    if v > 0x07FF#16 then v ||| 0xF000#16 else v

/-- `decodeResult` (40_codec R69): shifts 0..15 are admitted (D8). -/
def decodeResult (shift : Nat) (raw : Word) : Except Status Word :=
  if shift > 15 then .error .invalidOperand else .ok (decodeWord shift raw)

/-- The threshold fits in `16 - shift` signed bits (40_codec R70). -/
def thresholdFits (shift : Nat) (t : Word) : Bool :=
  -(2 ^ (15 - shift) : Int) ≤ t.toInt && t.toInt ≤ (2 ^ (15 - shift) : Int) - 1

/-- The threshold encoding (40_codec R70, D7, D8). -/
def encodeThreshold (shift : Nat) (t : Word) : Except Status Word :=
  if shift > 15 then .error .invalidOperand
  else if thresholdFits shift t then .ok (t <<< shift) else .error .thresholdOutOfRange

/-! ## Field decoders (30_encoding R62): `none` is the outcome "reserved", no value -/

/-- The index with a code, if the table holds it. -/
def indexOfCode (codes : List (BitVec 3)) (c : BitVec 3) : Option Nat :=
  if c ∈ codes then some (codes.idxOf c) else none

/-- `unpackGain`. -/
def unpackGain (T : CodecTables) (c : BitVec 3) : Option Nat := indexOfCode T.gain c

/-- `unpackMux`: the pair or the channel with the code. -/
def unpackMux (T : CodecTables) (c : BitVec 3) : Option Selector :=
  match indexOfCode T.muxDiff c with
  | some p => some (.diff p)
  | none => (indexOfCode T.muxSe c).map .se

/-- `unpackRate`. -/
def unpackRate (T : CodecTables) (v : Variant) (c : BitVec 3) : Option Nat := indexOfCode (rateCodes T v) c

end Sys2Proof.Machine
end

