-- ==== Sys2Proof/Machine/Ops.lean ====
section
/-! DEFINITION. The shared operations on the state: the register writes, ending an operation with a status or a value
(60_exceptions R107, 42_protocol R83), the bus transactions and the wait (00_scope R11), and running on one of several
handles (60_exceptions R113). -/

namespace Sys2Proof.Machine

/-! ## Handle fields -/

/-- `phase <- P` (00_scope R11). -/
def State.setPhase (s : State) (p : Phase) : State := { s with h := { s.h with phase := p } }

/-- `H.gain <- g` (42_protocol R84). -/
def State.setGain (s : State) (g : Nat) : State := { s with h := { s.h with gain := g } }

/-- `H.rate <- i` (42_protocol R86). -/
def State.setRate (s : State) (i : Nat) : State := { s with h := { s.h with rate := i } }

/-! ## The bus log (10_state R27) -/

/-- The bus log of handle 0, the one the machine runs. -/
def State.log (s : State) : List Event := s.h.log

/-- Events are appended to the handle's own bus log. -/
def Handle.logged (h : Handle) (evs : List Event) : Handle := { h with log := h.log ++ evs }

/-! ## Ending an operation -/

/-- Error entry (60_exceptions R107): `S <- E`, `Y` holds no value, `phase <- Idle`, nothing else. There is no return
from it (60_exceptions R108): the next operation is accepted like any other. -/
def State.raise (s : State) (e : Status) : State :=
  { s with h := { s.h with status := some e, result := none, phase := .idle } }

/-- `return v` (42_protocol R83): `S <- OK`, `Y <- v` or no value, `phase <- Idle`. -/
def State.ret (s : State) (v : Option Word) : State :=
  { s with h := { s.h with status := some .ok, result := v, phase := .idle } }

/-- End with the value a pure function answers, or with the status it raises. -/
def State.conclude (s : State) (r : Except Status Word) : State :=
  match r with
  | .ok v => s.ret (some v)
  | .error e => s.raise e

/-! ## The Environment's answers (92_eei_decisions D14) -/

/-- The answer the next bus write gets (log 7). -/
def State.writeAnswer (s : State) : WriteAnswer := s.env.writeAnswers.headD (Config.freeWriteAnswer s.env.writeDraws)

/-- The answer the next bus read gets (log 7). -/
def State.readAnswer (s : State) : ReadAnswer := s.env.readAnswers.headD (Config.freeReadAnswer s.env.readDraws)

/-- By how much the next wait overshoots (log 12). -/
def State.waitExtra (s : State) : Nat := s.env.waitExtras.headD (Config.freeWaitExtra s.env.waitDraws)

/-- One write answer is used up. -/
def useWrite (e : Environment) : Environment :=
  match e.writeAnswers with
  | _ :: rest => { e with writeAnswers := rest }
  | [] => { e with writeDraws := e.writeDraws + 1 }

/-- One read answer is used up. -/
def useRead (e : Environment) : Environment :=
  match e.readAnswers with
  | _ :: rest => { e with readAnswers := rest }
  | [] => { e with readDraws := e.readDraws + 1 }

/-- One wait answer is used up. -/
def useWait (e : Environment) : Environment :=
  match e.waitExtras with
  | _ :: rest => { e with waitExtras := rest }
  | [] => { e with waitDraws := e.waitDraws + 1 }

/-- The read contract (00_scope R11, 20_memory R33): success is a transaction that returned exactly two bytes. -/
def readOk (a : ReadAnswer) : Bool := a.acked && a.byteCount == 2

/-! ## Bus transactions and the wait (00_scope R11) -/

/-- Where a register of the handle's device lies (20_memory R29). -/
def State.regKey (s : State) (r : Reg) : Nat := devKey s.h.transport s.h.addr (ptrOf s.params.tables r)

/-- The device registers after a write with the given answer: a failed write may have been taken all the same
(60_exceptions R101, U8; log 8). -/
def devAfterWrite (m : Memory) (key : Nat) (v : Word) (a : WriteAnswer) : Memory :=
  if a.ok || a.takenAnyway then m.write key v else m

/-- `BusWrite(H.addr, ptr, v)`; its answer is `s.writeAnswer.ok`. -/
def State.busWrite (s : State) (r : Reg) (v : Word) : State :=
  { s with
    env := useWrite s.env
    h := s.h.logged [.write s.h.transport s.h.addr (ptrOf s.params.tables r) v s.writeAnswer.ok]
    devRegs := devAfterWrite s.devRegs (s.regKey r) v s.writeAnswer }

/-- `BusRead(H.addr, ptr)`; its answer is `readOk s.readAnswer` and `s.readAnswer.value`. A read changes nothing but the
log (20_memory R34). -/
def State.busRead (s : State) (r : Reg) : State :=
  { s with
    env := useRead s.env
    h := s.h.logged [.read s.h.transport s.h.addr (ptrOf s.params.tables r) (readOk s.readAnswer) s.readAnswer.value] }

/-- `Wait(ms)`: at least `ms` milliseconds pass (60_exceptions R111, 70_reset_and_hazards R125; log 12). -/
def State.waitFor (s : State) (ms : Nat) : State :=
  { s with
    env := useWait s.env
    h := s.h.logged [.wait ms]
    elapsed := s.elapsed + ms + s.waitExtra }

/-- `conversionDelay(H.variant, H.rate)` (42_protocol R89). -/
def State.delay (s : State) : Nat := conversionDelay s.params.tables s.h.variant s.h.rate

/-! ## Several handles (60_exceptions R113) -/

/-- Handle `k`: 0 is the one the machine runs, `k + 1` is the k-th further handle. -/
def State.handle (s : State) : Nat → Option Handle
  | 0 => some s.h
  | k + 1 => s.peers[k]?

/-- Exchange handle `k` with handle 0; exchanging twice changes nothing. -/
def State.swap (s : State) : Nat → State
  | 0 => s
  | k + 1 =>
    match s.peers[k]? with
    | some p => { s with h := p, peers := s.peers.set k s.h }
    | none => s

/-- Run on handle `k`. -/
def onHandle (k : Nat) (run : State → Host.Outcome State Fault Refusal) (s : State) :
    Host.Outcome State Fault Refusal :=
  match run (s.swap k) with
  | .next t => .next (t.swap k)
  | .fault f => .fault f
  | .refused r => .refused r

/-- The handle is in the middle of an operation. -/
def busy (h : Handle) : Bool := h.phase != .idle

/-- The first handle in progress among those a condition picks. -/
def State.firstBusy (s : State) (pick : Handle → Bool) : Option Nat :=
  (s.h :: s.peers).findIdx? (fun h => busy h && pick h)

end Sys2Proof.Machine
end

