-- ==== Sys2Proof/Machine/Accessors.lean ====
section
/-! DEFINITION. The handle accessors (42_protocol R84..R88): no bus traffic. -/

namespace Sys2Proof.Machine

/-- `SET_GAIN g` (42_protocol R84). -/
def execSetGain (g : Nat) (s : State) : Host.Outcome State Fault Refusal :=
  .next (if g > 5 then s.raise .invalidOperand else (s.setGain g).ret none)

/-- `GET_GAIN` (42_protocol R85). -/
def execGetGain (s : State) : Host.Outcome State Fault Refusal :=
  .next (s.ret (some (BitVec.ofNat 16 s.h.gain)))

/-- `SET_RATE i` (42_protocol R86). -/
def execSetRate (i : Nat) (s : State) : Host.Outcome State Fault Refusal :=
  .next (if i ≥ rateCount s.h.variant then s.raise .invalidOperand else (s.setRate i).ret none)

/-- `GET_RATE` (42_protocol R87): the rate index (D20). -/
def execGetRate (s : State) : Host.Outcome State Fault Refusal :=
  .next (s.ret (some (BitVec.ofNat 16 s.h.rate)))

/-- `GET_ADDRESS` (42_protocol R88). -/
def execGetAddress (s : State) : Host.Outcome State Fault Refusal :=
  .next (s.ret (some (s.h.addr.setWidth 16)))

end Sys2Proof.Machine
end

