-- ==== Sys2Proof/Machine/Codec.lean ====
section
/-! DEFINITION. The codec operations (40_codec R63..R70): pure, no bus transaction, no wait (R71). -/

namespace Sys2Proof.Machine

/-- `PACK_GAIN g` (40_codec R63). -/
def execPackGain (g : Nat) (s : State) : Host.Outcome State Fault Refusal :=
  .next (s.conclude (packGain s.params.tables g))

/-- `PACK_INPUT_SE ch` (40_codec R64). -/
def execPackInputSe (ch : Nat) (s : State) : Host.Outcome State Fault Refusal :=
  .next (s.conclude (packInputSe s.params.tables ch))

/-- `PACK_INPUT_DIFF p` (40_codec R65). -/
def execPackInputDiff (p : Nat) (s : State) : Host.Outcome State Fault Refusal :=
  .next (s.conclude (packInputDiff s.params p))

/-- `PACK_RATE v, i` (40_codec R66). -/
def execPackRate (v i : Nat) (s : State) : Host.Outcome State Fault Refusal :=
  .next (s.conclude (packRate s.params.tables v i))

/-- `BUILD_READ_CONFIG g, sel, r` (40_codec R67). -/
def execBuildReadConfig (g : Nat) (sel : Selector) (r : Nat) (s : State) : Host.Outcome State Fault Refusal :=
  .next (s.conclude (buildReadConfig s.params g sel r))

/-- `BUILD_COMPARATOR_CONFIG g, sel, r` (40_codec R68). -/
def execBuildComparatorConfig (g : Nat) (sel : Selector) (r : Nat) (s : State) : Host.Outcome State Fault Refusal :=
  .next (s.conclude (buildComparatorConfig s.params g sel r))

/-- `DECODE_RESULT s, raw` (40_codec R69). -/
def execDecodeResult (shift : Nat) (raw : Word) (s : State) : Host.Outcome State Fault Refusal :=
  .next (s.conclude (decodeResult shift raw))

/-- `ENCODE_THRESHOLD s, t` (40_codec R70). -/
def execEncodeThreshold (shift : Nat) (thr : Word) (s : State) : Host.Outcome State Fault Refusal :=
  .next (s.conclude (encodeThreshold shift thr))

end Sys2Proof.Machine
end

