-- ==== Sys2Proof/Machine/Lookup.lean ====
section
/-! DEFINITION. The Device Variant lookups (41_variant_tables R77..R81): they read `H.variant` and `H.rate` and nothing
else. -/

namespace Sys2Proof.Machine

/-- `SAMPLES_PER_SECOND` (41_variant_tables R77). -/
def execSamplesPerSecond (s : State) : Host.Outcome State Fault Refusal :=
  .next (s.ret (some (BitVec.ofNat 16 (sps s.params.tables s.h.variant s.h.rate))))

/-- `BIT_SHIFT` (41_variant_tables R78). -/
def execBitShift (s : State) : Host.Outcome State Fault Refusal :=
  .next (s.ret (some (BitVec.ofNat 16 (shiftOf s.h.variant))))

/-- `RATE_REGISTER_BITS` (41_variant_tables R79). -/
def execRateRegisterBits (s : State) : Host.Outcome State Fault Refusal :=
  .next (s.ret (some (rateField s.params.tables s.h.variant s.h.rate)))

/-- `CONVERSION_DELAY` (41_variant_tables R81). -/
def execConversionDelay (s : State) : Host.Outcome State Fault Refusal :=
  .next (s.ret (some (BitVec.ofNat 16 s.delay)))

end Sys2Proof.Machine
end

