-- ==== Sys2Proof/Machine/Protocol.lean ====
section
/-! DEFINITION. The sequenced operations (42_protocol R89..R93), each written as its pseudocode runs, from Idle back to
Idle (log 1). -/

namespace Sys2Proof.Machine

/-- `convertAndRead()` (42_protocol R89). -/
def convertAndRead (s : State) : State :=
  let waited := ((s.setPhase .converting).waitFor s.delay).setPhase .reading
  let got := waited.busRead .conv
  if readOk waited.readAnswer then got.conclude (decodeResult (shiftOf s.h.variant) waited.readAnswer.value)
  else got.raise .busReadFailed

/-- The body of the two read paths once the input is resolved to its positioned mux bits (42_protocol R90, R91). -/
def readPath (mux : Word) (s : State) : State :=
  let started := s.setPhase (.configuring (.readConfig mux))
  let written := started.busWrite .config (handleConfig s.params.tables.readFixed s.params.tables s.h mux)
  if started.writeAnswer.ok then convertAndRead written else written.raise .busWriteFailed

/-- The body of the comparator path once its operands are validated (42_protocol R92): the high threshold, then the
configuration, stopping at the first failed write (D11). -/
def armPath (mux hi : Word) (s : State) : State :=
  let started := s.setPhase (.configuring (.armHigh mux hi))
  let first := started.busWrite .hiThresh hi
  if started.writeAnswer.ok then
    let second := (first.setPhase (.configuring (.armConfig mux))).busWrite .config
      (handleConfig s.params.tables.compFixed s.params.tables s.h mux)
    if first.writeAnswer.ok then second.ret none else second.raise .busWriteFailed
  else first.raise .busWriteFailed

/-- `READ_SE ch` (42_protocol R90). -/
def execReadSe (ch : Nat) (s : State) : Host.Outcome State Fault Refusal :=
  .next (match packInputSe s.params.tables ch with
    | .ok mux => readPath mux s
    | .error e => s.raise e)

/-- `READ_DIFF p` (42_protocol R91). -/
def execReadDiff (p : Nat) (s : State) : Host.Outcome State Fault Refusal :=
  .next (match packInputDiff s.params p with
    | .ok mux => readPath mux s
    | .error e => s.raise e)

/-- `START_COMPARATOR sel, thr` (42_protocol R92): the selector is checked before the threshold (60_exceptions R106). -/
def execStartComparator (sel : Selector) (thr : Word) (s : State) : Host.Outcome State Fault Refusal :=
  .next (match resolveInput s.params sel with
    | .ok mux =>
      match encodeThreshold (shiftOf s.h.variant) thr with
      | .ok hi => armPath mux hi s
      | .error e => s.raise e
    | .error e => s.raise e)

/-- `GET_LAST_CONVERSION` (42_protocol R93). -/
def execGetLastConversion (s : State) : Host.Outcome State Fault Refusal :=
  .next (convertAndRead s)

end Sys2Proof.Machine
end

