-- ==== Sys2Proof/Machine/Dispatch.lean ====
section
/-! DEFINITION. The meaning of every operation (30_encoding R54), one arm a constructor. -/

namespace Sys2Proof.Machine

def exec (i : Instr) (s : State) : Host.Outcome State Fault Refusal :=
  match i with
  -- 40_codec
  | .packGain g => Sys2Proof.Machine.execPackGain g s
  | .packInputSe ch => Sys2Proof.Machine.execPackInputSe ch s
  | .packInputDiff p => Sys2Proof.Machine.execPackInputDiff p s
  | .packRate v r => Sys2Proof.Machine.execPackRate v r s
  | .buildReadConfig g sel r => Sys2Proof.Machine.execBuildReadConfig g sel r s
  | .buildComparatorConfig g sel r => Sys2Proof.Machine.execBuildComparatorConfig g sel r s
  | .decodeResult k raw => Sys2Proof.Machine.execDecodeResult k raw s
  | .encodeThreshold k thr => Sys2Proof.Machine.execEncodeThreshold k thr s
  -- 41_variant_tables
  | .samplesPerSecond => Sys2Proof.Machine.execSamplesPerSecond s
  | .bitShift => Sys2Proof.Machine.execBitShift s
  | .rateRegisterBits => Sys2Proof.Machine.execRateRegisterBits s
  | .conversionDelay => Sys2Proof.Machine.execConversionDelay s
  -- 42_protocol
  | .setGain g => Sys2Proof.Machine.execSetGain g s
  | .getGain => Sys2Proof.Machine.execGetGain s
  | .setRate r => Sys2Proof.Machine.execSetRate r s
  | .getRate => Sys2Proof.Machine.execGetRate s
  | .getAddress => Sys2Proof.Machine.execGetAddress s
  | .readSe ch => Sys2Proof.Machine.execReadSe ch s
  | .readDiff p => Sys2Proof.Machine.execReadDiff p s
  | .startComparator sel thr => Sys2Proof.Machine.execStartComparator sel thr s
  | .getLastConversion => Sys2Proof.Machine.execGetLastConversion s

end Sys2Proof.Machine
end

