-- ==== Sys2Proof/Machine/Sequencer.lean ====
section
/-! DEFINITION. The sequencer one phase transition at a time (10_state R21), for a handle found in the middle of an
operation: what ends a hold (70_reset_and_hazards R123, R124; log 1). -/

namespace Sys2Proof.Machine

/-- The next transition of the operation in progress on handle 0 (10_state R21, 42_protocol R89..R93). -/
def advance (s : State) : State :=
  match s.h.phase with
  | .idle => s
  | .configuring (.readConfig mux) =>
    let written := s.busWrite .config (handleConfig s.params.tables.readFixed s.params.tables s.h mux)
    if s.writeAnswer.ok then written.setPhase .converting else written.raise .busWriteFailed
  | .configuring (.armHigh mux hi) =>
    let written := s.busWrite .hiThresh hi
    if s.writeAnswer.ok then written.setPhase (.configuring (.armConfig mux)) else written.raise .busWriteFailed
  | .configuring (.armConfig mux) =>
    let written := s.busWrite .config (handleConfig s.params.tables.compFixed s.params.tables s.h mux)
    if s.writeAnswer.ok then written.ret none else written.raise .busWriteFailed
  | .converting => (s.waitFor s.delay).setPhase .reading
  | .reading =>
    let got := s.busRead .conv
    if readOk s.readAnswer then got.conclude (decodeResult (shiftOf s.h.variant) s.readAnswer.value)
    else got.raise .busReadFailed

end Sys2Proof.Machine
end

