-- ==== Sys2Proof/Machine/Frame.lean ====
section
/-! DEFINITION. The operation frame (42_protocol R83) and the other things a step serves: which request is served, what
is held (70_reset_and_hazards R123, R124), a read of `Y` (00_scope R12), the creation of a handle (R116), and how a word
comes onto the ports. -/

namespace Sys2Proof.Machine

/-- The frame of one presented word (42_protocol R83): an undecodable word raises `IllegalOperation` before any other
check or effect (60_exceptions R103). -/
def runWord (cmd : CmdWord) (d : Word) (s : State) : Host.Outcome State Fault Refusal :=
  match decode cmd d with
  | .ok i => exec i s
  | .error _ => .next (s.raise .illegalOperation)

/-- The Caller reads `Y`: a fault where it holds no value (00_scope R12, U6). -/
def readResult (s : State) : Host.Outcome State Fault Refusal :=
  match s.h.result with
  | some _ => .next s
  | none => .fault .resultAbsent

/-- The Caller creates a further handle; a refused creation makes none (70_reset_and_hazards R116, D28; log 18). DESIGN
CHOICE: a device that already has a handle may get another (log 32). -/
def createPeer (v : Variant) (addr : BitVec 7) (transport : Nat) (s : State) : State :=
  match createHandle s.params v addr transport with
  | some h => { s with peers := s.peers ++ [h] }
  | none => s

/-- A handle in progress makes its next transition. -/
def resume (k : Nat) (s : State) : Host.Outcome State Fault Refusal :=
  onHandle k (fun t => .next (advance t)) s

/-- Serve what the Caller asks of handle `k`, unless a handle on its bus is in the middle of an operation: then the
request is held and that operation makes its next transition (70_reset_and_hazards R123, R124; log 15). -/
def serve (k : Nat) (rest : List Request) (run : State → Host.Outcome State Fault Refusal) (s : State) :
    Host.Outcome State Fault Refusal :=
  match s.handle k with
  | none => .refused .noSuchHandle
  | some target =>
    match s.firstBusy (fun h => h.transport == target.transport) with
    | some j => resume j s
    | none => onHandle k run { s with requests := rest }

/-- With nothing presented, an operation in progress goes on, and otherwise the Block waits in Idle
(70_reset_and_hazards R116; log 14). -/
def waitForRequest (s : State) : Host.Outcome State Fault Refusal :=
  match s.firstBusy (fun _ => true) with
  | some j => resume j s
  | none => .next s

/-- One step of the machine. -/
def stepState (s : State) : Host.Outcome State Fault Refusal :=
  match s.requests with
  | [] => waitForRequest s
  | .operation k cmd d :: rest => serve k rest (runWord cmd d) s
  | .readResult k :: rest => serve k rest readResult s
  | .create v addr transport :: rest => .next (createPeer v addr transport { s with requests := rest })

/-- The handle is put in Idle, where alone an operation is accepted (42_protocol R83). -/
def idled (h : Handle) : Handle := { h with phase := .idle }

/-- A packet is presented to handle 0 so that the very next step runs it (log 19). -/
def presentWord (s : State) (p : Packet) : State :=
  { s with h := idled s.h, peers := s.peers.map idled, requests := .operation 0 p.cmd p.d :: s.requests }

end Sys2Proof.Machine
end

