-- ==== Sys2Proof/Machine/Step.lean ====
section
/-! DEFINITION. One step of the machine, and how the host puts an instruction where the next step takes it. -/

namespace Sys2Proof.Machine

/-- One step (42_protocol R83, 70_reset_and_hazards R123, R124). -/
def step (s : State) : Host.Outcome State Fault Refusal := stepState s

/-- The instruction of an opcode-table word, presented to handle 0 (log 19). -/
def State.withFetchWord (s : State) (nbits w : Nat) : State := presentWord s (packetOfBits nbits w)

end Sys2Proof.Machine
end

