-- ==== Sys2Proof/Safety.lean ====
section
/-! DEFINITION. The terms claims are stated in: a legal handle and a legal state, idleness, a word presented on the ports,
the rows of the opcode map at the level of a step, and an operation's end written out as data. -/

namespace Sys2Proof

/-! ## Kinds of operation -/

/-- The codec operations of 40_codec. -/
def Instr.isCodec : Instr → Bool
  | .packGain _ | .packInputSe _ | .packInputDiff _ | .packRate _ _ | .buildReadConfig _ _ _
  | .buildComparatorConfig _ _ _ | .decodeResult _ _ | .encodeThreshold _ _ => true
  | .samplesPerSecond | .bitShift | .rateRegisterBits | .conversionDelay | .setGain _ | .getGain | .setRate _
  | .getRate | .getAddress | .readSe _ | .readDiff _ | .startComparator _ _ | .getLastConversion => false

/-- The sequenced operations (00_scope R7, 42_protocol R90..R93). -/
def Instr.isSequenced : Instr → Bool
  | .readSe _ | .readDiff _ | .startComparator _ _ | .getLastConversion => true
  | .packGain _ | .packInputSe _ | .packInputDiff _ | .packRate _ _ | .buildReadConfig _ _ _
  | .buildComparatorConfig _ _ _ | .decodeResult _ _ | .encodeThreshold _ _ | .samplesPerSecond | .bitShift
  | .rateRegisterBits | .conversionDelay | .setGain _ | .getGain | .setRate _ | .getRate | .getAddress => false

/-- The operations that write a handle field (42_protocol R96). -/
def Instr.setsHandle : Instr → Bool
  | .setGain _ | .setRate _ => true
  | .packGain _ | .packInputSe _ | .packInputDiff _ | .packRate _ _ | .buildReadConfig _ _ _
  | .buildComparatorConfig _ _ _ | .decodeResult _ _ | .encodeThreshold _ _ | .samplesPerSecond | .bitShift
  | .rateRegisterBits | .conversionDelay | .getGain | .getRate | .getAddress | .readSe _ | .readDiff _
  | .startComparator _ _ | .getLastConversion => false

/-- The operations that return a status and no value (42_protocol R84, R86, R92). -/
def Instr.valueless : Instr → Bool
  | .setGain _ | .setRate _ | .startComparator _ _ => true
  | .packGain _ | .packInputSe _ | .packInputDiff _ | .packRate _ _ | .buildReadConfig _ _ _
  | .buildComparatorConfig _ _ _ | .decodeResult _ _ | .encodeThreshold _ _ | .samplesPerSecond | .bitShift
  | .rateRegisterBits | .conversionDelay | .getGain | .getRate | .getAddress | .readSe _ | .readDiff _
  | .getLastConversion => false

end Sys2Proof

namespace Sys2Proof.Machine

/-! ## Legal states -/

/-- A handle as the rules say it always is: a strapped address (10_state R17), a gain index 0..5 (R19), a rate index of
its variant (R20), and a value on `Y` only beside `OK` (R15). -/
abbrev handleOk (P : Params) (h : Handle) : Prop :=
  h.addr ∈ P.tables.addrs ∧ h.gain ≤ 5 ∧ h.rate < rateCount h.variant ∧ (h.result ≠ none → h.status = some .ok)

/-- The invariant of every step: legal parameters, legal handles, device registers in canonical form. -/
abbrev State.Inv (s : State) : Prop :=
  paramsWf s.params ∧ (∀ h ∈ s.h :: s.peers, handleOk s.params h) ∧ s.devRegs.wf

/-- Every handle is between operations (00_scope R7). -/
abbrev State.allIdle (s : State) : Prop := ∀ h ∈ s.h :: s.peers, h.phase = .idle

/-- Handle 0 may start an operation: every handle on its bus is Idle (42_protocol R83, 70_reset_and_hazards R123). -/
abbrev State.ready (s : State) : Prop :=
  ∀ h ∈ s.h :: s.peers, h.transport = s.h.transport → h.phase = .idle

/-! ## Presenting words -/

/-- The word `{op, a, b, c}` and `d` stand on the ports of handle 0, before everything else presented. -/
def State.present (s : State) (op a b c : Byte) (d : Word) : State :=
  { s with requests := .operation 0 (op ++ (a ++ (b ++ c))) d :: s.requests }

/-- An operation's end: port `S` and port `Y` written, the phase Idle, nothing else (42_protocol R83, 60_exceptions R107). -/
def ended (h : Handle) (st : Status) (y : Option Word) : Handle :=
  { h with status := some st, result := y, phase := .idle }

/-- The machine after an operation that touched nothing but the ports. -/
def State.ended (s : State) (st : Status) (y : Option Word) : State := { s with h := Machine.ended s.h st y }

/-- The row of an operation that uses the operand bytes `A`, `B` and `C` (30_encoding R54). -/
def RowABC (op : Byte) (mk : Byte → Byte → Byte → Instr) : Prop :=
  ∀ (s : State) (a b c : Byte) (d : Word), s.ready → step (s.present op a b c d) = exec (mk a b c) s

/-- The row of an operation that uses `A` and `B`: a nonzero `C` raises `IllegalOperation` (30_encoding R54, R58 (b)). -/
def RowAB (op : Byte) (mk : Byte → Byte → Instr) : Prop :=
  ∀ (s : State) (a b c : Byte) (d : Word), s.ready →
    step (s.present op a b c d) = if c = 0 then exec (mk a b) s else .next (s.ended .illegalOperation none)

/-- The row of an operation that uses `A` and perhaps `D` (30_encoding R54, R58 (b)). -/
def RowA (op : Byte) (mk : Byte → Word → Instr) : Prop :=
  ∀ (s : State) (a b c : Byte) (d : Word), s.ready →
    step (s.present op a b c d) = if b = 0 ∧ c = 0 then exec (mk a d) s else .next (s.ended .illegalOperation none)

/-- The row of an operation without operands (30_encoding R54, R58 (b)). -/
def Row0 (op : Byte) (i : Instr) : Prop :=
  ∀ (s : State) (a b c : Byte) (d : Word), s.ready →
    step (s.present op a b c d) =
      if a = 0 ∧ b = 0 ∧ c = 0 then exec i s else .next (s.ended .illegalOperation none)

/-- The read path of a selector's input (42_protocol R90, R91). -/
def readOf : Selector → Instr
  | .se ch => .readSe ch
  | .diff p => .readDiff p

/-- The selector a byte spells, by its bits (30_encoding R56). -/
def selectorBits (b : Byte) : Selector :=
  if b.getLsbD 7 then .diff (b.extractLsb' 0 7).toNat else .se (b.extractLsb' 0 7).toNat

/-! ## Codes -/

/-- The mux code a selector's input has in the tables; `none` where the input does not exist (30_encoding R44, R56). -/
def selCode (P : Params) : Selector → Option (BitVec 3)
  | .se ch => P.tables.muxSe[ch]?
  | .diff p => if P.extDiffPairs = false ∧ (p = 1 ∨ p = 2) then none else P.tables.muxDiff[p]?

/-- The status a selector of a missing input raises (60_exceptions R100, R104). -/
def selError : Selector → Status
  | .se _ => .invalidChannel
  | .diff _ => .invalidOperand

/-- A configuration word field by field: the fixed bits of its kind with a mux, a gain and a rate code (30_encoding R43). -/
def kindWord (b : FixedBits) (mux pga dr : BitVec 3) : Word :=
  configWord ⟨b.os, mux, pga, b.mode, dr, b.cmode, b.cpol, b.clat, b.cque⟩

/-- The codes the handle's gain and rate have in the tables. -/
def handleCodes (s : State) (pga dr : BitVec 3) : Prop :=
  s.params.tables.gain[s.h.gain]? = some pga ∧ (rateCodes s.params.tables s.h.variant)[s.h.rate]? = some dr

/-! ## Bus events of handle 0 -/

/-- `W(ptr, v) -> ok` by handle 0 (42_protocol R98). -/
def State.evW (s : State) (r : Reg) (v : Word) (ok : Bool) : Event :=
  .write s.h.transport s.h.addr (ptrOf s.params.tables r) v ok

/-- `R(CONV) -> (ok, v)` by handle 0 with the answer at hand (42_protocol R98). -/
def State.evR (s : State) : Event :=
  .read s.h.transport s.h.addr (ptrOf s.params.tables .conv) (readOk s.readAnswer) s.readAnswer.value

/-- A bus transaction that failed. -/
def Event.failed : Event → Bool
  | .write _ _ _ _ ok => !ok
  | .read _ _ _ ok _ => !ok
  | .wait _ => false

/-- A write to a pointer. -/
def Event.writesTo (p : BitVec 2) : Event → Bool
  | .write _ _ q _ _ => q == p
  | _ => false

/-- A read. -/
def Event.isRead : Event → Bool
  | .read _ _ _ _ _ => true
  | _ => false

/-- The parameters with another wire byte order (20_memory R31). -/
def State.withOrder (o : WireByteOrder) (s : State) : State :=
  { s with params := { s.params with wireByteOrder := o } }

/-- The transitions of 10_state R21 that an operation in progress may make, each labelled by nothing but its two ends. -/
def allowedTransition : Phase → Phase → Prop
  | .idle, .idle => True
  | .configuring (.readConfig _), .converting => True
  | .configuring (.armHigh _ _), .configuring (.armConfig _) => True
  | .configuring _, .idle => True
  | .converting, .reading => True
  | .reading, .idle => True
  | _, _ => False

/-- The events an operation may append to its handle's bus log, in the order of 42_protocol R98. -/
def allowedTraffic (i : Instr) (s : State) (evs : List Event) : Prop :=
  match i with
  | .readSe _ | .readDiff _ =>
    evs = [] ∨ ∃ cfg, evs = [s.evW .config cfg false] ∨ evs = [s.evW .config cfg true, .wait s.delay, s.evR]
  | .startComparator _ _ =>
    evs = [] ∨ ∃ hi cfg ok, evs = [s.evW .hiThresh hi false] ∨
      evs = [s.evW .hiThresh hi true, s.evW .config cfg ok]
  | .getLastConversion => evs = [.wait s.delay, s.evR]
  | .packGain _ | .packInputSe _ | .packInputDiff _ | .packRate _ _ | .buildReadConfig _ _ _
  | .buildComparatorConfig _ _ _ | .decodeResult _ _ | .encodeThreshold _ _ | .samplesPerSecond | .bitShift
  | .rateRegisterBits | .conversionDelay | .setGain _ | .getGain | .setRate _ | .getRate | .getAddress => evs = []

end Sys2Proof.Machine
end

