-- ==== Sys2Proof/Certificates/Slice0/Obligations.lean ====
section
/-! DEFINITION. The statements for the provers. Each docstring names the rules of spec/ it rests on. -/

open Sys2Proof Sys2Proof.Machine

/-! ## Encoding -/

/-- Decoding an encoded well-formed operation gives it back, with every operand at every value its byte can spell
(30_encoding R53, R54, R56). -/
def Obligations.DecodeInvertsEncode : Prop :=
  ∀ i : Instr, i.wellFormed = true → decode (encode i).cmd (encode i).d = .ok i

/-- An accepted word is the encoding of what it decodes to, and so is the data port where the operation reads it: no bit
of an accepted word is dropped (30_encoding R53, R54, R58 (b)). -/
def Obligations.AcceptedWordIsItsEncoding : Prop :=
  ∀ (cmd : CmdWord) (d : Word) (i : Instr), decode cmd d = .ok i →
    i.wellFormed = true ∧ (encode i).cmd = cmd ∧ (i.readsD = true → (encode i).d = d)

/-- The decoder accepts exactly the words that meet a row's mask, and names that row; a row that ignores `D` decodes the
same whatever stands on the port (30_encoding R54, R58 (a), (b), (d)). -/
def Obligations.DecoderAcceptsExactlyTheTable : Prop :=
  ∀ (cmd : CmdWord) (d : Word),
    (∀ i, decode cmd d = .ok i →
      ∃ row ∈ opcodeTable, row.mnemonic = i.mnemonic ∧ cmd &&& row.mask = row.matchWord) ∧
    (∀ row ∈ opcodeTable, cmd &&& row.mask = row.matchWord → ∃ i, decode cmd d = .ok i ∧ i.mnemonic = row.mnemonic) ∧
    (∀ i d', decode cmd d = .ok i → i.readsD = false → decode cmd d' = .ok i)

/-- Words the spec writes out decode to the operations it gives for them (30_encoding R60, R61; 95_test_vectors). -/
def Obligations.SpecWordsDecode : Prop :=
  decode 0x05010104 0 = .ok (.buildReadConfig 1 (.se 1) 4) ∧
  decode 0x07040000 0x8000 = .ok (.decodeResult 4 0x8000) ∧
  decode 0x32000000 0x03E8 = .ok (.startComparator (.se 0) 0x03E8) ∧
  decode 0x32800000 0x0064 = .ok (.startComparator (.diff 0) 0x0064) ∧
  decode 0x31030000 0 = .ok (.readDiff 3) ∧
  decode 0x00000000 0 = .error .unassignedOpcode ∧
  decode 0x04000401 0 = .error .reservedByteNonzero

/-- A step runs the presented word on the handle it names: the decoded operation, or `IllegalOperation` for a word that
is none. Around the operation the step takes the request off the ports and puts the named handle in place
(42_protocol R83, 60_exceptions R113; the queue and the handle numbers are the model's, logs 15 and 19). -/
def Obligations.StepRunsTheDecodedOperation : Prop :=
  ∀ (s : State) (k : Nat) (target : Handle) (cmd : CmdWord) (d : Word) (rest : List Request),
    s.requests = .operation k cmd d :: rest → s.handle k = some target →
    (∀ h ∈ s.h :: s.peers, h.transport = target.transport → h.phase = .idle) →
    (∀ i, decode cmd d = .ok i → step s = onHandle k (exec i) { s with requests := rest }) ∧
    (∀ e, decode cmd d = .error e →
      step s = onHandle k (fun t => .next (t.ended .illegalOperation none)) { s with requests := rest }) ∧
    (k = 0 → ∀ i, decode cmd d = .ok i → step s = exec i { s with requests := rest })

/-- A word that meets no row's mask raises `IllegalOperation` before anything else: only `S`, `Y` and the phase are
written, and no transaction is issued (60_exceptions R103). -/
def Obligations.IllegalWordRaisesIllegalOperation : Prop :=
  ∀ (s : State) (cmd : CmdWord) (d : Word), s.ready →
    (∀ row ∈ opcodeTable, cmd &&& row.mask ≠ row.matchWord) →
    step { s with requests := .operation 0 cmd d :: s.requests } = .next (s.ended .illegalOperation none)

/-! ## The configuration register -/

/-- Packing and extraction undo each other both ways, and positioned fields never carry into each other
(30_encoding R43, which the spec derives from R42). -/
def Obligations.ConfigWordAndFieldsInverse : Prop :=
  (∀ f : ConfigFields, fieldsOf (configWord f) = f) ∧ (∀ w : Word, configWord (fieldsOf w) = w) ∧
  (∀ f : ConfigFields, (configWord f).toNat =
    f.os.toNat * 2 ^ 15 + f.mux.toNat * 2 ^ 12 + f.pga.toNat * 2 ^ 9 + f.mode.toNat * 2 ^ 8 + f.dr.toNat * 2 ^ 5 +
    f.cmode.toNat * 2 ^ 4 + f.cpol.toNat * 2 ^ 3 + f.clat.toNat * 2 ^ 2 + f.cque.toNat)

/-- `PACK_GAIN` gives the gain code at bits 11:9 and refuses every other index; nothing else changes (40_codec R63). The
codes under the default tables are the spec's default instantiation (D1), not the source's; that R63's result 0 for gain 0 is
read of those tables only is the model's choice (log 33). -/
def Obligations.PackGainGivesTheCode : Prop :=
  RowA 0x01 (fun a _ => .packGain a.toNat) ∧
  (∀ (s : State) (g : Nat), tablesWf s.params.tables →
    exec (.packGain g) s = .next (match s.params.tables.gain[g]? with
      | some code => s.ended .ok (some (code.setWidth 16 <<< 9))
      | none => s.ended .invalidOperand none)) ∧
  (∀ (s : State) (g : Nat), g > 5 → exec (.packGain g) s = .next (s.ended .invalidOperand none)) ∧
  (∀ (s : State) (g : Nat), s.params.tables = defaultTables → g ≤ 5 →
    exec (.packGain g) s = .next (s.ended .ok (some (BitVec.ofNat 16 (g * 512)))))

/-- `PACK_INPUT_SE` gives the mux code at bits 14:12, four distinct patterns, and `InvalidChannel` above 3; nothing else
changes (40_codec R64). -/
def Obligations.PackInputSeGivesTheCode : Prop :=
  RowA 0x02 (fun a _ => .packInputSe a.toNat) ∧
  (∀ (s : State) (ch : Nat), tablesWf s.params.tables →
    exec (.packInputSe ch) s = .next (match s.params.tables.muxSe[ch]? with
      | some code => s.ended .ok (some (code.setWidth 16 <<< 12))
      | none => s.ended .invalidChannel none)) ∧
  (∀ (s : State) (ch : Nat), ch > 3 → exec (.packInputSe ch) s = .next (s.ended .invalidChannel none)) ∧
  (∀ (s t u : State) (ch ch' : Nat), tablesWf s.params.tables → ch ≤ 3 → ch' ≤ 3 →
    exec (.packInputSe ch) s = .next t → exec (.packInputSe ch') s = .next u → t.h.result = u.h.result → ch = ch') ∧
  (∀ (s : State) (ch : Nat), s.params.tables = defaultTables → ch ≤ 3 →
    exec (.packInputSe ch) s = .next (s.ended .ok (some (BitVec.ofNat 16 ((4 + ch) * 4096)))))

/-- `PACK_INPUT_DIFF` gives the pair's code at bits 14:12; pairs 1 and 2 need `EXT_DIFF_PAIRS`; nothing else changes
(40_codec R65). That R65's result 0 for pair 0 is read of the default tables only is the model's choice (log 33). -/
def Obligations.PackInputDiffGivesTheCode : Prop :=
  RowA 0x03 (fun a _ => .packInputDiff a.toNat) ∧
  (∀ (s : State) (p : Nat), tablesWf s.params.tables →
    exec (.packInputDiff p) s = .next (match selCode s.params (.diff p) with
      | some code => s.ended .ok (some (code.setWidth 16 <<< 12))
      | none => s.ended .invalidOperand none)) ∧
  (∀ (s : State) (p : Nat), p > 3 ∨ ((p = 1 ∨ p = 2) ∧ s.params.extDiffPairs = false) →
    exec (.packInputDiff p) s = .next (s.ended .invalidOperand none)) ∧
  (∀ (s : State) (p : Nat), s.params.tables = defaultTables → p = 0 ∨ p = 3 ∨ (p ≤ 3 ∧ s.params.extDiffPairs = true) →
    exec (.packInputDiff p) s = .next (s.ended .ok (some (BitVec.ofNat 16 (p * 4096)))))

/-- `PACK_RATE` gives the rate code at bits 7:5 and refuses a bad variant or index; nothing else changes
(40_codec R66). That R66's "code `111` is never produced for `LowRes`" and its result 0 for index 0 are read of the default
tables only, so that another legal table may give code 111, is the model's choice (log 33). -/
def Obligations.PackRateGivesTheCode : Prop :=
  RowAB 0x04 (fun a b => .packRate a.toNat b.toNat) ∧
  (∀ (s : State) (v i : Nat), v > 1 → exec (.packRate v i) s = .next (s.ended .invalidOperand none)) ∧
  (∀ (s : State) (i : Nat), tablesWf s.params.tables →
    exec (.packRate 0 i) s = .next (match s.params.tables.rateLow[i]? with
      | some code => s.ended .ok (some (code.setWidth 16 <<< 5))
      | none => s.ended .invalidOperand none) ∧
    exec (.packRate 1 i) s = .next (match s.params.tables.rateHigh[i]? with
      | some code => s.ended .ok (some (code.setWidth 16 <<< 5))
      | none => s.ended .invalidOperand none)) ∧
  (∀ (s : State) (v i : Nat), (v = 0 ∧ i ≥ 7) ∨ (v = 1 ∧ i ≥ 8) →
    exec (.packRate v i) s = .next (s.ended .invalidOperand none)) ∧
  (∀ (s : State) (v i : Nat), s.params.tables = defaultTables → (v = 0 ∧ i ≤ 6) ∨ (v = 1 ∧ i ≤ 7) →
    exec (.packRate v i) s = .next (s.ended .ok (some (BitVec.ofNat 16 (i * 32)))))

/-- `BUILD_READ_CONFIG` gives the word whose fields are the read kind's fixed bits and the three packed codes, its
operands checked in the order `A`, `B`, `C`; nothing else changes; with the default fixed bits the word is the OR of 0x8103
and the three fields (40_codec R67, 60_exceptions R106). That R67's `MODE = 1` and `CQUE = 11` are read of the default fixed
bits only is the model's choice (log 33). -/
def Obligations.BuildReadConfigGivesTheWord : Prop :=
  RowABC 0x05 (fun a b c => .buildReadConfig a.toNat (selectorBits b) c.toNat) ∧
  (∀ (s : State) (g : Nat) (sel : Selector) (r : Nat), tablesWf s.params.tables →
    exec (.buildReadConfig g sel r) s = .next (match s.params.tables.gain[g]?, selCode s.params sel with
      | none, _ => s.ended .invalidOperand none
      | some _, none => s.ended (selError sel) none
      | some pga, some mux =>
        if r > 7 then s.ended .invalidOperand none
        else s.ended .ok (some (kindWord s.params.tables.readFixed mux pga (BitVec.ofNat 3 r))))) ∧
  (∀ mux pga dr : BitVec 3, kindWord defaultReadFixed mux pga dr =
    0x8103#16 ||| (mux.setWidth 16 <<< 12) ||| (pga.setWidth 16 <<< 9) ||| (dr.setWidth 16 <<< 5))

/-- `BUILD_COMPARATOR_CONFIG` the same with the comparator kind's fixed bits, by default 0x0004 (40_codec R68,
60_exceptions R106). That R68's `MODE = 0`, `CLAT = 1` and `CQUE = 00` are read of the default fixed bits only is the model's
choice (log 33). -/
def Obligations.BuildComparatorConfigGivesTheWord : Prop :=
  RowABC 0x06 (fun a b c => .buildComparatorConfig a.toNat (selectorBits b) c.toNat) ∧
  (∀ (s : State) (g : Nat) (sel : Selector) (r : Nat), tablesWf s.params.tables →
    exec (.buildComparatorConfig g sel r) s = .next (match s.params.tables.gain[g]?, selCode s.params sel with
      | none, _ => s.ended .invalidOperand none
      | some _, none => s.ended (selError sel) none
      | some pga, some mux =>
        if r > 7 then s.ended .invalidOperand none
        else s.ended .ok (some (kindWord s.params.tables.compFixed mux pga (BitVec.ofNat 3 r))))) ∧
  (∀ mux pga dr : BitVec 3, kindWord defaultCompFixed mux pga dr =
    0x0004#16 ||| (mux.setWidth 16 <<< 12) ||| (pga.setWidth 16 <<< 9) ||| (dr.setWidth 16 <<< 5))

/-- A read word and a comparator word, from any operands, are never equal, and bit 15 tells them apart; under the default
tables their fixed bits are 0x0103 and 0x0004 of mask 0x011F with bit 15 set and clear (40_codec R74; that R74's other
settings are read of the default tables only is the model's choice, log 33). -/
def Obligations.ConfigKindsAreDistinct : Prop :=
  ∀ (s t u : State) (g g' r r' : Nat) (sel sel' : Selector) (w w' : Word), tablesWf s.params.tables →
    exec (.buildReadConfig g sel r) s = .next t → t.h.result = some w →
    exec (.buildComparatorConfig g' sel' r') s = .next u → u.h.result = some w' →
    w.getLsbD 15 ≠ w'.getLsbD 15 ∧
    (s.params.tables = defaultTables →
      w.getLsbD 15 = true ∧ w &&& 0x011F = 0x0103 ∧ w'.getLsbD 15 = false ∧ w' &&& 0x011F = 0x0004)

/-! ## Decoding and thresholds -/

/-- `DECODE_RESULT` follows the literal formula for every admitted shift and refuses a shift above 15; nothing else
changes (40_codec R69). -/
def Obligations.DecodeResultFollowsTheFormula : Prop :=
  RowA 0x07 (fun a d => .decodeResult a.toNat d) ∧
  (∀ (s : State) (k : Nat) (raw : Word), k > 15 → exec (.decodeResult k raw) s = .next (s.ended .invalidOperand none)) ∧
  (∀ (s : State) (raw : Word), exec (.decodeResult 0 raw) s = .next (s.ended .ok (some raw))) ∧
  (∀ (s : State) (k : Nat) (raw : Word), 1 ≤ k → k ≤ 15 →
    exec (.decodeResult k raw) s = .next (s.ended .ok (some
      (if raw.toNat / 2 ^ k > 0x07FF then BitVec.ofNat 16 ((raw.toNat / 2 ^ k) ||| 0xF000)
       else BitVec.ofNat 16 (raw.toNat / 2 ^ k))))) ∧
  (∀ (raw : Word) (k : Nat), 5 ≤ k → k ≤ 15 → raw.toNat / 2 ^ k ≤ 0x07FF)

/-- With the `LowRes` shift the result is the signed value of the top 12 bits, the floor of the signed raw value over 16,
within -2048..2047; with the `HighRes` shift it is the signed raw value (40_codec R73, derived there from R69). -/
def Obligations.DecodeResultIsSignedQuotient : Prop :=
  ∀ (s t u : State) (raw y z : Word),
    exec (.decodeResult 4 raw) s = .next t → t.h.result = some y →
    exec (.decodeResult 0 raw) s = .next u → u.h.result = some z →
    y = (raw.extractLsb' 4 12).signExtend 16 ∧ y.toInt = raw.toInt / 16 ∧ -2048 ≤ y.toInt ∧ y.toInt ≤ 2047 ∧
    z.toInt = raw.toInt

/-- `ENCODE_THRESHOLD` gives the threshold times 2^shift exactly, or `ThresholdOutOfRange`, or `InvalidOperand` for a
shift above 15; nothing else changes (40_codec R70). -/
def Obligations.EncodeThresholdScalesExactly : Prop :=
  RowA 0x08 (fun a d => .encodeThreshold a.toNat d) ∧
  (∀ (s : State) (k : Nat) (t : Word), k > 15 → exec (.encodeThreshold k t) s = .next (s.ended .invalidOperand none)) ∧
  (∀ (s : State) (k : Nat) (t : Word), k ≤ 15 →
    t.toInt < -(2 ^ (15 - k) : Int) ∨ t.toInt > (2 ^ (15 - k) : Int) - 1 →
    exec (.encodeThreshold k t) s = .next (s.ended .thresholdOutOfRange none)) ∧
  (∀ (s : State) (k : Nat) (t : Word), k ≤ 15 →
    -(2 ^ (15 - k) : Int) ≤ t.toInt → t.toInt ≤ (2 ^ (15 - k) : Int) - 1 →
    ∃ y : Word, exec (.encodeThreshold k t) s = .next (s.ended .ok (some y)) ∧ y.toInt = t.toInt * 2 ^ k ∧ y = t <<< k)

/-- For both variants' shifts decoding an encoded threshold gives it back, and for shift 4 encoding a decoded value gives
the raw value without its low four bits. For shifts 1 to 3 the round trip fails: for some negative threshold with shift 1
or 2, and with shift 3 for some positive one, while every negative one comes back. (R73's bullet says for shifts 1 to 3
"fails for negative `t`"; the formula of R69 decides, log 28.) (40_codec R73, derived there from R69). -/
def Obligations.ThresholdRoundTrip : Prop :=
  (∀ (s u : State) (k : Nat) (t y : Word), k = 0 ∨ k = 4 → exec (.encodeThreshold k t) s = .next u →
    u.h.result = some y → exec (.decodeResult k y) u = .next (u.ended .ok (some t))) ∧
  (∀ (s u : State) (raw y : Word), exec (.decodeResult 4 raw) s = .next u → u.h.result = some y →
    exec (.encodeThreshold 4 y) u = .next (u.ended .ok (some (raw &&& 0xFFF0)))) ∧
  (∀ (s : State) (k : Nat), 1 ≤ k → k ≤ 3 →
    ∃ (u : State) (t y : Word), (k ≤ 2 → t.toInt < 0) ∧ exec (.encodeThreshold k t) s = .next u ∧
      u.h.result = some y ∧ exec (.decodeResult k y) u ≠ .next (u.ended .ok (some t))) ∧
  (∀ (s : State) (t : Word), -4096 ≤ t.toInt → t.toInt < 0 →
    ∃ (u : State) (y : Word), exec (.encodeThreshold 3 t) s = .next u ∧ u.h.result = some y ∧
      exec (.decodeResult 3 y) u = .next (u.ended .ok (some t)))

/-! ## Lookups -/

/-- The lookups give what the tables hold for the handle's variant and rate, and nothing else changes;
`RATE_REGISTER_BITS` equals `PACK_RATE` of the two; in a legal state the handle's rate is in its tables
(41_variant_tables R77, R78, R79). That R79's "for `LowRes` the result is never `0x00E0`" is read of the default tables only is
the model's choice (log 33). -/
def Obligations.LookupsReadTheTables : Prop :=
  Row0 0x10 .samplesPerSecond ∧ Row0 0x11 .bitShift ∧ Row0 0x12 .rateRegisterBits ∧
  (∀ (s : State) (r : Nat), (spsList s.params.tables s.h.variant)[s.h.rate]? = some r →
    exec .samplesPerSecond s = .next (s.ended .ok (some (BitVec.ofNat 16 r)))) ∧
  (∀ s : State, exec .bitShift s =
    .next (s.ended .ok (some (if s.h.variant = .lowRes then 4#16 else 0#16)))) ∧
  (∀ (s : State) (code : BitVec 3), (rateCodes s.params.tables s.h.variant)[s.h.rate]? = some code →
    exec .rateRegisterBits s = .next (s.ended .ok (some (code.setWidth 16 <<< 5)))) ∧
  (∀ s : State, s.Inv →
    exec .rateRegisterBits s = exec (.packRate (if s.h.variant = .lowRes then 0 else 1) s.h.rate) s) ∧
  (∀ s : State, s.Inv → ∃ (r : Nat) (code : BitVec 3),
    (spsList s.params.tables s.h.variant)[s.h.rate]? = some r ∧ 8 ≤ r ∧ r ≤ 3300 ∧
    (rateCodes s.params.tables s.h.variant)[s.h.rate]? = some code ∧
    (s.params.tables = defaultTables → s.h.variant = .lowRes → code ≠ 0b111))

/-- `CONVERSION_DELAY` is one more than the least number of milliseconds that hold a whole sample at the handle's current
rate; nothing else changes; under the default tables it is the table of R82 (41_variant_tables R80, R81, R82). -/
def Obligations.ConversionDelayIsCeilingPlusOne : Prop :=
  Row0 0x13 .conversionDelay ∧
  ∀ (s : State) (r : Nat), s.Inv → (spsList s.params.tables s.h.variant)[s.h.rate]? = some r →
    ∃ q : Nat, exec .conversionDelay s = .next (s.ended .ok (some (BitVec.ofNat 16 (q + 1)))) ∧
      s.delay = q + 1 ∧ q * r ≥ 1000 ∧ (∀ q', q' * r ≥ 1000 → q ≤ q') ∧ 2 ≤ q + 1 ∧ q + 1 ≤ 126 ∧
      (s.params.tables = defaultTables → some (q + 1) =
        (if s.h.variant = .lowRes then [9, 5, 4, 3, 2, 2, 2] else [126, 64, 33, 17, 9, 5, 4, 3])[s.h.rate]?)

/-! ## Handle accessors -/

/-- `SET_GAIN` stores a gain index 0..5 and returns no value; another index raises `InvalidOperand` and changes nothing
(42_protocol R84). -/
def Obligations.SetGainStoresTheIndex : Prop :=
  RowA 0x20 (fun a _ => .setGain a.toNat) ∧
  (∀ (s : State) (g : Nat), g ≤ 5 →
    exec (.setGain g) s = .next { s with h := ended { s.h with gain := g } .ok none }) ∧
  (∀ (s : State) (g : Nat), g > 5 → exec (.setGain g) s = .next (s.ended .invalidOperand none))

/-- `SET_RATE` stores a rate index of the handle's variant and returns no value; another index raises `InvalidOperand` and
changes nothing (42_protocol R86). -/
def Obligations.SetRateStoresTheIndex : Prop :=
  RowA 0x22 (fun a _ => .setRate a.toNat) ∧
  (∀ (s : State) (i : Nat), i < (if s.h.variant = .lowRes then 7 else 8) →
    exec (.setRate i) s = .next { s with h := ended { s.h with rate := i } .ok none }) ∧
  (∀ (s : State) (i : Nat), i ≥ (if s.h.variant = .lowRes then 7 else 8) →
    exec (.setRate i) s = .next (s.ended .invalidOperand none))

/-- `GET_GAIN`, `GET_RATE` and `GET_ADDRESS` return the handle field, zero-extended, and change nothing else; right after
reset they give `INIT_GAIN` and 4 (42_protocol R85, R87, R88). -/
def Obligations.GettersReturnTheField : Prop :=
  Row0 0x21 .getGain ∧ Row0 0x23 .getRate ∧ Row0 0x24 .getAddress ∧
  (∀ s : State, exec .getGain s = .next (s.ended .ok (some (BitVec.ofNat 16 s.h.gain)))) ∧
  (∀ s : State, exec .getRate s = .next (s.ended .ok (some (BitVec.ofNat 16 s.h.rate)))) ∧
  (∀ s : State, exec .getAddress s = .next (s.ended .ok (some (s.h.addr.setWidth 16)))) ∧
  (∀ s : State, s.Inv → ∃ a ∈ s.params.tables.addrs,
    exec .getAddress s = .next (s.ended .ok (some (BitVec.ofNat 16 a.toNat)))) ∧
  exec .getGain State.reset = .next (State.reset.ended .ok (some (BitVec.ofNat 16 State.reset.params.initGain))) ∧
  exec .getRate State.reset = .next (State.reset.ended .ok (some 4))

/-- Presenting `SET_GAIN g` and then `GET_GAIN` gives back `g` in two steps with no bus traffic (42_protocol R85 quotes
the source; R84). -/
def Obligations.SetGainThenGetGain : Prop :=
  ∀ (s : State) (g : Byte) (d d' : Word), s.ready → g.toNat ≤ 5 →
    Host.Core.run core 2 ((s.present 0x21 0 0 0 d').present 0x20 g 0 0 d) =
      .next { s with h := ended { s.h with gain := g.toNat } .ok (some (g.setWidth 16)) }

/-! ## Sequenced operations -/

/-- `READ_SE` with answered transactions: the read configuration of the handle's gain, rate and the channel is written,
the conversion delay waited out, `CONV` read, and the decoded value returned; nothing else changes (42_protocol R89, R90,
R98). That a successful write leaves the word in the device register, and the clock, are the model's (logs 9, 12). -/
def Obligations.ReadSeDeliversTheSample : Prop :=
  RowA 0x30 (fun a _ => .readSe a.toNat) ∧
  ∀ (s : State) (ch : Nat) (mux pga dr : BitVec 3), s.params.tables.muxSe[ch]? = some mux → ch ≤ 3 →
    handleCodes s pga dr → s.writeAnswer.ok = true → readOk s.readAnswer = true →
    exec (.readSe ch) s = .next { s with
      h := ended
        (s.h.logged [s.evW .config (kindWord s.params.tables.readFixed mux pga dr) true, .wait s.delay, s.evR])
        .ok (some (decodeWord (if s.h.variant = .lowRes then 4 else 0) s.readAnswer.value))
      devRegs := s.devRegs.write (s.regKey .config) (kindWord s.params.tables.readFixed mux pga dr)
      env := useRead (useWait (useWrite s.env))
      elapsed := s.elapsed + s.delay + s.waitExtra }

/-- `READ_DIFF` the same with a pair's mux code (42_protocol R91, R89, R98; logs 9, 12). -/
def Obligations.ReadDiffDeliversTheSample : Prop :=
  RowA 0x31 (fun a _ => .readDiff a.toNat) ∧
  ∀ (s : State) (p : Nat) (mux pga dr : BitVec 3), selCode s.params (.diff p) = some mux → p ≤ 3 →
    handleCodes s pga dr → s.writeAnswer.ok = true → readOk s.readAnswer = true →
    exec (.readDiff p) s = .next { s with
      h := ended
        (s.h.logged [s.evW .config (kindWord s.params.tables.readFixed mux pga dr) true, .wait s.delay, s.evR])
        .ok (some (decodeWord (if s.h.variant = .lowRes then 4 else 0) s.readAnswer.value))
      devRegs := s.devRegs.write (s.regKey .config) (kindWord s.params.tables.readFixed mux pga dr)
      env := useRead (useWait (useWrite s.env))
      elapsed := s.elapsed + s.delay + s.waitExtra }

/-- `START_COMPARATOR` with both writes answered: the threshold scaled by the variant's shift goes to the high-threshold
register, then the comparator configuration is written; no wait, no read, no value (42_protocol R92, R98; log 9). -/
def Obligations.StartComparatorArms : Prop :=
  RowA 0x32 (fun a d => .startComparator (selectorBits a) d) ∧
  ∀ (s : State) (sel : Selector) (thr hi : Word) (mux pga dr : BitVec 3), tablesWf s.params.tables →
    selCode s.params sel = some mux → handleCodes s pga dr →
    hi.toInt = thr.toInt * (if s.h.variant = .lowRes then 16 else 1) →
    s.writeAnswer.ok = true → (s.busWrite .hiThresh hi).writeAnswer.ok = true →
    exec (.startComparator sel thr) s = .next { s with
      h := ended
        (s.h.logged [s.evW .hiThresh hi true, s.evW .config (kindWord s.params.tables.compFixed mux pga dr) true])
        .ok none
      devRegs := (s.devRegs.write (s.regKey .hiThresh) hi).write (s.regKey .config)
        (kindWord s.params.tables.compFixed mux pga dr)
      env := useWrite (useWrite s.env) }

/-- `GET_LAST_CONVERSION` with an answered read: the delay of the current rate, then `CONV`, decoded; no write, so the
configuration in effect stays (42_protocol R93, R89, R98; log 12). -/
def Obligations.GetLastConversionReadsWithoutWriting : Prop :=
  Row0 0x33 .getLastConversion ∧
  ∀ s : State, readOk s.readAnswer = true →
    exec .getLastConversion s = .next { s with
      h := ended (s.h.logged [.wait s.delay, s.evR]) .ok
        (some (decodeWord (if s.h.variant = .lowRes then 4 else 0) s.readAnswer.value))
      env := useRead (useWait s.env)
      elapsed := s.elapsed + s.delay + s.waitExtra }

/-- The word a read path writes to `CONFIG` is the value `BUILD_READ_CONFIG` returns for the handle's gain, the input and the
handle's rate code, and it is the path's only write. The word the comparator path writes to `CONFIG`, after its threshold
write went through, is that of `BUILD_COMPARATOR_CONFIG` (42_protocol R90, R91, R92). -/
def Obligations.SequencedWordsAreBuiltWords : Prop :=
  ∀ (s : State) (sel : Selector) (mux pga dr : BitVec 3), tablesWf s.params.tables →
    selCode s.params sel = some mux → handleCodes s pga dr →
    ∃ read comp : Word,
      exec (.buildReadConfig s.h.gain sel dr.toNat) s = .next (s.ended .ok (some read)) ∧
      exec (.buildComparatorConfig s.h.gain sel dr.toNat) s = .next (s.ended .ok (some comp)) ∧
      (∃ (t : State) (ok : Bool) (rest : List Event), exec (readOf sel) s = .next t ∧
        t.log = s.log ++ s.evW .config read ok :: rest ∧ ∀ p, ∀ e ∈ rest, e.writesTo p = false) ∧
      (∀ thr hi : Word, hi.toInt = thr.toInt * 2 ^ shiftOf s.h.variant → s.writeAnswer.ok = true →
        ∃ (t : State) (ok : Bool), exec (.startComparator sel thr) s = .next t ∧
          t.log = s.log ++ [s.evW .hiThresh hi true, s.evW .config comp ok])

/-! ## Errors -/

/-- A channel above 3 raises `InvalidChannel` in every operation that takes one, before any bus traffic and with no change
of state but the ports (60_exceptions R100). -/
def Obligations.InvalidChannelChangesNothing : Prop :=
  ∀ (s : State) (ch : Nat), ch > 3 →
    exec (.packInputSe ch) s = .next (s.ended .invalidChannel none) ∧
    exec (.readSe ch) s = .next (s.ended .invalidChannel none) ∧
    (∀ thr, exec (.startComparator (.se ch) thr) s = .next (s.ended .invalidChannel none)) ∧
    (∀ g r, g ≤ 5 → exec (.buildReadConfig g (.se ch) r) s = .next (s.ended .invalidChannel none) ∧
      exec (.buildComparatorConfig g (.se ch) r) s = .next (s.ended .invalidChannel none))

/-- An operand outside its legal range raises `InvalidOperand` in every operation that takes one, before any bus traffic
and any state change but the ports (60_exceptions R104). -/
def Obligations.InvalidOperandChangesNothing : Prop :=
  ∀ s : State,
    (∀ g, g > 5 → exec (.packGain g) s = .next (s.ended .invalidOperand none) ∧
      exec (.setGain g) s = .next (s.ended .invalidOperand none) ∧
      ∀ sel r, exec (.buildReadConfig g sel r) s = .next (s.ended .invalidOperand none) ∧
        exec (.buildComparatorConfig g sel r) s = .next (s.ended .invalidOperand none)) ∧
    (∀ p, p > 3 ∨ ((p = 1 ∨ p = 2) ∧ s.params.extDiffPairs = false) →
      exec (.packInputDiff p) s = .next (s.ended .invalidOperand none) ∧
      exec (.readDiff p) s = .next (s.ended .invalidOperand none) ∧
      (∀ thr, exec (.startComparator (.diff p) thr) s = .next (s.ended .invalidOperand none)) ∧
      ∀ g r, exec (.buildReadConfig g (.diff p) r) s = .next (s.ended .invalidOperand none) ∧
        exec (.buildComparatorConfig g (.diff p) r) s = .next (s.ended .invalidOperand none)) ∧
    (∀ v i, v > 1 ∨ (v = 0 ∧ i > 6) ∨ (v = 1 ∧ i > 7) →
      exec (.packRate v i) s = .next (s.ended .invalidOperand none)) ∧
    (∀ i, i > (if s.h.variant = .lowRes then 6 else 7) → exec (.setRate i) s = .next (s.ended .invalidOperand none)) ∧
    (∀ g sel r mux, g ≤ 5 → tablesWf s.params.tables → selCode s.params sel = some mux → r > 7 →
      exec (.buildReadConfig g sel r) s = .next (s.ended .invalidOperand none) ∧
      exec (.buildComparatorConfig g sel r) s = .next (s.ended .invalidOperand none)) ∧
    (∀ k w, k > 15 → exec (.decodeResult k w) s = .next (s.ended .invalidOperand none) ∧
      exec (.encodeThreshold k w) s = .next (s.ended .invalidOperand none))

/-- A threshold that does not fit in `16 - shift` signed bits raises `ThresholdOutOfRange`, before any bus traffic
(60_exceptions R105). -/
def Obligations.ThresholdOutOfRangeChangesNothing : Prop :=
  ∀ (s : State) (t : Word),
    (∀ k, k ≤ 15 → t.toInt < -(2 ^ (15 - k) : Int) ∨ t.toInt > (2 ^ (15 - k) : Int) - 1 →
      exec (.encodeThreshold k t) s = .next (s.ended .thresholdOutOfRange none)) ∧
    (∀ sel mux, tablesWf s.params.tables → selCode s.params sel = some mux → s.h.variant = .lowRes →
      t.toInt < -2048 ∨ t.toInt > 2047 →
      exec (.startComparator sel t) s = .next (s.ended .thresholdOutOfRange none))

/-- A failed write ends the operation at once with `BusWriteFailed`: no further transaction, no wait, the handle's fields
unchanged (60_exceptions R101). What the device registers then hold is the model's: a failed write is taken or not as a free
answer says (log 8), and a first write that went through has left its word (log 9). -/
def Obligations.FailedWriteEndsTheOperation : Prop :=
  ∀ (s : State) (mux pga dr : BitVec 3), tablesWf s.params.tables → handleCodes s pga dr →
    (s.writeAnswer.ok = false →
      (∀ i, (∃ ch, i = .readSe ch ∧ s.params.tables.muxSe[ch]? = some mux) ∨
          (∃ p, i = .readDiff p ∧ selCode s.params (.diff p) = some mux) →
        exec i s = .next { s with
          h := ended
            (s.h.logged [s.evW .config (kindWord s.params.tables.readFixed mux pga dr) false])
            .busWriteFailed none
          devRegs := if s.writeAnswer.takenAnyway = true then
            s.devRegs.write (s.regKey .config) (kindWord s.params.tables.readFixed mux pga dr) else s.devRegs
          env := useWrite s.env })) ∧
    (∀ sel thr hi, selCode s.params sel = some mux → hi.toInt = thr.toInt * 2 ^ shiftOf s.h.variant →
      (s.writeAnswer.ok = false →
        exec (.startComparator sel thr) s = .next { s with
          h := ended (s.h.logged [s.evW .hiThresh hi false]) .busWriteFailed none
          devRegs := if s.writeAnswer.takenAnyway = true then
            s.devRegs.write (s.regKey .hiThresh) hi else s.devRegs
          env := useWrite s.env }) ∧
      (s.writeAnswer.ok = true → (s.busWrite .hiThresh hi).writeAnswer.ok = false →
        exec (.startComparator sel thr) s = .next { s with
          h := ended
            (s.h.logged [s.evW .hiThresh hi true,
            s.evW .config (kindWord s.params.tables.compFixed mux pga dr) false])
            .busWriteFailed none
          devRegs := if (s.busWrite .hiThresh hi).writeAnswer.takenAnyway = true then
            (s.devRegs.write (s.regKey .hiThresh) hi).write (s.regKey .config)
              (kindWord s.params.tables.compFixed mux pga dr)
            else s.devRegs.write (s.regKey .hiThresh) hi
          env := useWrite (useWrite s.env) }))

/-- A failed read, whether the transaction failed or other than two bytes came back, ends the operation with
`BusReadFailed`: the value is discarded and `Y` holds none (60_exceptions R102, 20_memory R33; what makes a read fail: log
22). That the configuration write has left its word in the device register, and the clock, are the model's (logs 9, 12). -/
def Obligations.FailedReadDiscardsTheValue : Prop :=
  ∀ s : State, s.readAnswer.acked = false ∨ s.readAnswer.byteCount ≠ 2 →
    (exec .getLastConversion s = .next { s with
      h := ended (s.h.logged [.wait s.delay, s.evR]) .busReadFailed none
      env := useRead (useWait s.env)
      elapsed := s.elapsed + s.delay + s.waitExtra }) ∧
    (∀ i mux pga dr, tablesWf s.params.tables → handleCodes s pga dr → s.writeAnswer.ok = true →
      ((∃ ch, i = .readSe ch ∧ s.params.tables.muxSe[ch]? = some mux) ∨
        (∃ p, i = .readDiff p ∧ selCode s.params (.diff p) = some mux)) →
      exec i s = .next { s with
        h := ended
          (s.h.logged [s.evW .config (kindWord s.params.tables.readFixed mux pga dr) true, .wait s.delay, s.evR])
          .busReadFailed none
        devRegs := s.devRegs.write (s.regKey .config) (kindWord s.params.tables.readFixed mux pga dr)
        env := useRead (useWait (useWrite s.env))
        elapsed := s.elapsed + s.delay + s.waitExtra })

/-- The status codes, that no other code names a status, and which operations can end with which status
(60_exceptions R99). -/
def Obligations.StatusCodesAndWhoRaisesThem : Prop :=
  [Status.ok, .invalidChannel, .busWriteFailed, .busReadFailed, .illegalOperation, .invalidOperand,
    .thresholdOutOfRange].map Status.code = [0x00, 0x01, 0x02, 0x03, 0x10, 0x11, 0x12] ∧
  (∀ st : Status, statusOfCode st.code = some st) ∧
  (∀ (c : Byte) (st : Status), statusOfCode c = some st → st.code = c) ∧
  (∀ (i : Instr) (s t : State), exec i s = .next t → ∃ st, t.h.status = some st ∧
    (st = .invalidChannel → (∃ ch, i = .packInputSe ch ∨ i = .readSe ch) ∨ (∃ ch thr, i = .startComparator (.se ch) thr) ∨
      ∃ g ch r, i = .buildReadConfig g (.se ch) r ∨ i = .buildComparatorConfig g (.se ch) r) ∧
    (st = .busWriteFailed → (∃ n, i = .readSe n ∨ i = .readDiff n) ∨ ∃ sel thr, i = .startComparator sel thr) ∧
    (st = .busReadFailed → (∃ n, i = .readSe n ∨ i = .readDiff n) ∨ i = .getLastConversion) ∧
    (st = .thresholdOutOfRange → (∃ k w, i = .encodeThreshold k w) ∨ ∃ sel thr, i = .startComparator sel thr) ∧
    (st = .invalidOperand → (∃ g, i = .packGain g ∨ i = .setGain g) ∨
      (∃ p, i = .packInputDiff p ∨ i = .readDiff p) ∨ (∃ v r, i = .packRate v r) ∨ (∃ r, i = .setRate r) ∨
      (∃ g sel r, i = .buildReadConfig g sel r ∨ i = .buildComparatorConfig g sel r) ∨
      (∃ k w, i = .decodeResult k w ∨ i = .encodeThreshold k w) ∨ ∃ p thr, i = .startComparator (.diff p) thr) ∧
    st ≠ .illegalOperation)

/-- An error leaves the handle as it was but for the ports, the phase and the events its bus log gains, and no parameter,
request or further handle is touched (60_exceptions R107, 42_protocol R96). -/
def Obligations.ErrorLeavesTheHandle : Prop :=
  ∀ (i : Instr) (s t : State) (e : Status), exec i s = .next t → t.h.status = some e → e ≠ .ok →
    (∃ evs, t.h = ended (s.h.logged evs) e none) ∧ t.params = s.params ∧ t.requests = s.requests ∧ t.peers = s.peers

/-! ## Frames and laws of the whole machine -/

/-- A codec operation writes only `Y` and `S`, issues no transaction and no wait, and its result depends only on its
operands, the tables and `EXT_DIFF_PAIRS` (40_codec R71). -/
def Obligations.CodecIsPure : Prop :=
  ∀ (i : Instr) (s s' : State), i.isCodec = true → s.params.tables = s'.params.tables →
    s.params.extDiffPairs = s'.params.extDiffPairs →
    ∃ (st : Status) (y : Option Word), exec i s = .next (s.ended st y) ∧ exec i s' = .next (s'.ended st y)

/-- Only `SET_GAIN` writes the gain and only `SET_RATE` the rate, each only when it succeeds; no operation writes the
variant, the address or the transport (10_state R16 to R20, 42_protocol R96). -/
def Obligations.OnlySettersWriteHandleFields : Prop :=
  ∀ (i : Instr) (s t : State), exec i s = .next t →
    t.h.variant = s.h.variant ∧ t.h.addr = s.h.addr ∧ t.h.transport = s.h.transport ∧ t.h.phase = .idle ∧
    (t.h.gain ≠ s.h.gain → i = .setGain t.h.gain ∧ t.h.status = some .ok) ∧
    (t.h.rate ≠ s.h.rate → i = .setRate t.h.rate ∧ t.h.status = some .ok)

/-- Every operation completes: from every state it answers a next state, with a status, in Idle
(00_scope R7, 42_protocol R95: every wait runs to completion). -/
def Obligations.EveryOperationEndsInIdle : Prop :=
  ∀ (i : Instr) (s : State), ∃ t, exec i s = .next t ∧ t.h.phase = .idle ∧ t.h.status ≠ none ∧
    (t.h.result ≠ none → t.h.status = some .ok) ∧ (t.h.status = some .ok → (t.h.result = none ↔ i.valueless = true))

/-- The bus log an operation leaves is one of the traces of 42_protocol R98, in that order (derived there). -/
def Obligations.TrafficOfEachOperation : Prop :=
  ∀ (i : Instr) (s t : State), exec i s = .next t → ∃ evs, t.log = s.log ++ evs ∧ allowedTraffic i s evs

/-- Each transaction of an operation is issued at most once, and after a failed transaction no later one is issued
(42_protocol R94). -/
def Obligations.NoRetries : Prop :=
  ∀ (i : Instr) (s t : State) (evs : List Event), tablesWf s.params.tables → exec i s = .next t → t.log = s.log ++ evs →
    (∀ p, (evs.filter (Event.writesTo p)).length ≤ 1) ∧ (evs.filter Event.isRead).length ≤ 1 ∧
    (∀ e ∈ evs.dropLast, e.failed = false) ∧
    (∀ e ∈ evs, e.failed = true → t.h.status = some .busWriteFailed ∨ t.h.status = some .busReadFailed)

/-- What an operation stores in the device register space: `READ_SE` and `READ_DIFF` at most `CONFIG`, `START_COMPARATOR`
at most `HI_THRESH` and `CONFIG`, every other operation nothing; every other register of every device reads as before,
`LO_THRESH` among them (42_protocol R90 to R93, R98; the register space is the model's, log 9). -/
def Obligations.DeviceRegisterFrame : Prop :=
  ∀ (i : Instr) (s t : State) (key : Nat), exec i s = .next t →
    (i.isSequenced = false ∨ i = .getLastConversion → t.devRegs = s.devRegs) ∧
    ((∃ n, i = .readSe n ∨ i = .readDiff n) → key ≠ s.regKey .config → t.devRegs.read key = s.devRegs.read key) ∧
    ((∃ sel thr, i = .startComparator sel thr) → key ≠ s.regKey .config → key ≠ s.regKey .hiThresh →
      t.devRegs.read key = s.devRegs.read key) ∧
    (tablesWf s.params.tables → t.devRegs.read (s.regKey .loThresh) = s.devRegs.read (s.regKey .loThresh))

/-- What each kind of operation leaves. One that is not sequenced changes no more than the ports, the phase and, for a
setter, its field: no log entry, no device register, no wait, no answer of the Environment used. A sequenced one leaves the
parameters, the requests, the further handles and every handle field but the ports and the phase; the handle's log only
gains events and time only passes (40_codec R71, 42_protocol R84 to R88, R96, R98, 10_state R27). -/
def Obligations.OperationFrames : Prop :=
  (∀ (i : Instr) (s t : State), i.isSequenced = false → exec i s = .next t →
    t = { s with h := t.h } ∧
    (i.setsHandle = false → t.h = { s.h with status := t.h.status, result := t.h.result, phase := .idle }) ∧
    (∀ g, i = .setGain g →
      t.h = { s.h with gain := t.h.gain, status := t.h.status, result := t.h.result, phase := .idle }) ∧
    (∀ r, i = .setRate r →
      t.h = { s.h with rate := t.h.rate, status := t.h.status, result := t.h.result, phase := .idle })) ∧
  ∀ (i : Instr) (s t : State), i.isSequenced = true → exec i s = .next t →
    t.params = s.params ∧ t.requests = s.requests ∧ t.peers = s.peers ∧
    (∃ evs, t.h = { s.h.logged evs with status := t.h.status, result := t.h.result, phase := .idle }) ∧
    s.elapsed ≤ t.elapsed

/-- Whenever an operation reads `CONV`, the read comes right after a wait of the handle's conversion delay, and at least
that many milliseconds have passed (70_reset_and_hazards R119, R125; the clock is the model's, log 12). -/
def Obligations.ReadComesAfterTheConversionTime : Prop :=
  ∀ (i : Instr) (s t : State) (evs : List Event), exec i s = .next t → t.log = s.log ++ evs →
    (∃ e ∈ evs, e.isRead = true) →
    (∃ before, evs = before ++ [.wait s.delay, s.evR]) ∧ t.elapsed ≥ s.elapsed + s.delay

/-- A setting takes effect at the next configuration write only: `SET_GAIN` and `SET_RATE` leave every device register
and the log, and a `READ_SE` after them writes the new codes (70_reset_and_hazards R120). That the new word then stands in
the device register is the model's (log 9). -/
def Obligations.SettingsTakeEffectAtTheNextWrite : Prop :=
  ∀ (s t : State) (g n ch : Nat) (mux pga dr : BitVec 3), tablesWf s.params.tables → g ≤ 5 →
    n < rateCount s.h.variant → s.params.tables.muxSe[ch]? = some mux →
    s.params.tables.gain[g]? = some pga → (rateCodes s.params.tables s.h.variant)[n]? = some dr →
    s.writeAnswer.ok = true →
    ∃ u v : State, exec (.setGain g) s = .next u ∧ exec (.setRate n) u = .next v ∧
      v.devRegs = s.devRegs ∧ v.log = s.log ∧
      (exec (.readSe ch) v = .next t →
        t.devRegs.read (s.regKey .config) = some (kindWord s.params.tables.readFixed mux pga dr))

/-- A read after an armed comparator, a `READ_SE` or a `READ_DIFF` of any input, at once or after a
`GET_LAST_CONVERSION`, replaces its configuration by a read configuration; `GET_LAST_CONVERSION` leaves it
(70_reset_and_hazards R121, derived there; the register space is the model's, log 9). -/
def Obligations.ReadReplacesTheComparatorConfiguration : Prop :=
  ∀ (s t : State) (sel : Selector) (thr : Word), tablesWf s.params.tables →
    exec (.startComparator sel thr) s = .next t → t.h.status = some .ok →
    ∃ comp : Word, t.devRegs.read (s.regKey .config) = some comp ∧
      (fieldsOf comp).mode = s.params.tables.compFixed.mode ∧ (fieldsOf comp).cque = s.params.tables.compFixed.cque ∧
      (∀ u, exec .getLastConversion t = .next u → u.devRegs.read (s.regKey .config) = some comp) ∧
      ∀ (u v : State) (sel' : Selector), u = t ∨ exec .getLastConversion t = .next u →
        exec (readOf sel') u = .next v → v.h.status = some .ok →
        ∃ read : Word, v.devRegs.read (s.regKey .config) = some read ∧ comp ≠ read ∧
          (fieldsOf read).mode = s.params.tables.readFixed.mode ∧ (fieldsOf read).cque = s.params.tables.readFixed.cque

/-- After `SET_RATE` the wait of `GET_LAST_CONVERSION` follows the new rate, while the configuration in the device is
still the old one (70_reset_and_hazards R122, derived there). The register space and the clock are the model's (logs 9, 12). -/
def Obligations.LastConversionWaitsAtTheNewRate : Prop :=
  ∀ (s t u : State) (n : Nat), n < rateCount s.h.variant → exec (.setRate n) s = .next t →
    exec .getLastConversion t = .next u →
    u.devRegs = s.devRegs ∧ u.elapsed ≥ s.elapsed + conversionDelay s.params.tables s.h.variant n ∧
    ∃ e, u.log = s.log ++ [.wait (conversionDelay s.params.tables s.h.variant n), e]

/-- No operation depends on the wire byte order (20_memory R31). -/
def Obligations.WireByteOrderIsNeverRead : Prop :=
  ∀ (i : Instr) (s t : State) (o : WireByteOrder), exec i s = .next t → exec i (s.withOrder o) = .next (t.withOrder o)

/-- `Y` holds no value after an error and after an operation that returns only a status, and the Caller's read of it is
then a fault (00_scope R12). That the read is a request of its own, presented like an operation, and that a read of a value
leaves the machine as it is, are the model's (logs 15, 17). -/
def Obligations.ReadingAnAbsentResultFaults : Prop :=
  (∀ (i : Instr) (s t : State), exec i s = .next t → t.h.status ≠ some .ok ∨ i.valueless = true → t.h.result = none) ∧
  (∀ s : State, s.ready →
    (s.h.result = none → step { s with requests := .readResult 0 :: s.requests } = .fault .resultAbsent) ∧
    (s.h.result ≠ none → step { s with requests := .readResult 0 :: s.requests } = .next s))

/-- The field decoders invert the code tables, and a code outside a table is reserved (30_encoding R62, derived
there). -/
def Obligations.FieldDecodersInvertTheTables : Prop :=
  ∀ T : CodecTables, tablesWf T →
    (∀ g code, T.gain[g]? = some code → unpackGain T code = some g) ∧
    (∀ code, code ∉ T.gain → unpackGain T code = none) ∧
    (∀ p code, T.muxDiff[p]? = some code → unpackMux T code = some (.diff p)) ∧
    (∀ ch code, T.muxSe[ch]? = some code → unpackMux T code = some (.se ch)) ∧
    (∀ code, unpackMux T code ≠ none) ∧
    (∀ v i code, (rateCodes T v)[i]? = some code → unpackRate T v code = some i) ∧
    (∀ v code, code ∉ rateCodes T v → unpackRate T v code = none)

/-! ## The sequencer, holds and handles -/

/-- The phases refine the meanings: from the phase in which a validated operation starts, the transitions of 10_state R21
one after another end in exactly the state the operation's meaning gives (42_protocol R89 to R93). The grain of `advance`
and what the phase `Configuring` carries are the model's (logs 1, 24). -/
def Obligations.PhasesRefineTheMeanings : Prop :=
  (∀ (s : State) (ch : Nat) (mux : Word), packInputSe s.params.tables ch = .ok mux →
    exec (.readSe ch) s = .next (advance^[3] (s.setPhase (.configuring (.readConfig mux))))) ∧
  (∀ (s : State) (p : Nat) (mux : Word), packInputDiff s.params p = .ok mux →
    exec (.readDiff p) s = .next (advance^[3] (s.setPhase (.configuring (.readConfig mux))))) ∧
  (∀ (s : State) (sel : Selector) (thr mux hi : Word), resolveInput s.params sel = .ok mux →
    encodeThreshold (shiftOf s.h.variant) thr = .ok hi →
    exec (.startComparator sel thr) s = .next (advance^[2] (s.setPhase (.configuring (.armHigh mux hi))))) ∧
  (∀ s : State, exec .getLastConversion s = .next (advance^[2] (s.setPhase .converting)))

/-- Every transition of a handle in progress is one of 10_state R21, or the model's own step inside `Configuring` from the
comparator path's first write to its second; it moves neither the handle's fields nor anything presented, and appends to
the handle's log. The grain of `advance` and what `Configuring` carries are the model's (logs 1, 24). -/
def Obligations.TransitionsAreTheListed : Prop :=
  ∀ s : State, allowedTransition s.h.phase (advance s).h.phase ∧ (advance s).requests = s.requests ∧
    (advance s).peers = s.peers ∧ (advance s).params = s.params ∧
    ∃ evs, (advance s).h = { s.h.logged evs with
      phase := (advance s).h.phase, status := (advance s).h.status, result := (advance s).h.result }

/-- An operation presented while handle 0 is not Idle is held: a step leaves what is presented, and the running operation
goes on to its end (70_reset_and_hazards R124). That a held step makes one transition, and that three end every operation,
is the grain of the model (logs 1, 15). -/
def Obligations.OperationIsHeldUntilIdle : Prop :=
  ∀ s : State, s.h.phase ≠ .idle →
    (∀ cmd d rest, s.requests = .operation 0 cmd d :: rest →
      step s = .next (advance s) ∧ (advance s).requests = s.requests) ∧
    (advance^[3] s).h.phase = .idle ∧ (advance^[3] s).requests = s.requests

/-- The operation at the head of what is presented is held while another handle on its bus is not Idle: the step leaves
the request and every idle handle as they are. With every handle on its bus Idle it runs, whatever handles on other buses are
doing (70_reset_and_hazards R123, 20_memory R36, 60_exceptions R113). That only the first request is looked at, so that a
later one on a free bus waits behind it, is the model's (log 15). -/
def Obligations.SharedBusHoldsTheOperation : Prop :=
  ∀ (s : State) (k : Nat) (target : Handle) (cmd : CmdWord) (d : Word) (rest : List Request),
    s.requests = .operation k cmd d :: rest → s.handle k = some target →
    ((∃ (j : Nat) (other : Handle), s.handle j = some other ∧ other.transport = target.transport ∧ other.phase ≠ .idle) →
      ∃ t, step s = .next t ∧ t.requests = s.requests ∧ t.params = s.params ∧
        ∀ (j : Nat) (h : Handle), s.handle j = some h → h.phase = .idle ∨ h.transport ≠ target.transport →
          t.handle j = some h) ∧
    ((∀ (j : Nat) (other : Handle), s.handle j = some other → other.transport = target.transport → other.phase = .idle) →
      step s = onHandle k (runWord cmd d) { s with requests := rest })

/-- Handles are independent: an operation on handle k leaves every other handle as it was (60_exceptions R113). -/
def Obligations.OtherHandlesAreUntouched : Prop :=
  ∀ (i : Instr) (s t : State) (k j : Nat) (h : Handle), s.handle k ≠ none → onHandle k (exec i) s = .next t → j ≠ k →
    s.handle j = some h → t.handle j = some h

/-- Creating a handle issues no bus traffic and sets its fields from the arguments and `INIT_GAIN`, its rate to the one
with the variant's default samples per second (index 4 under the default tables), Idle, the ports without a value, its bus
log empty, every other handle and its log as before; an address outside `ADDR_TABLE` makes none (70_reset_and_hazards
R116). That the machine goes on after a refusal and that a device may get a second handle are the model's (logs 18, 32). -/
def Obligations.CreationSetsTheHandle : Prop :=
  ∀ (s : State) (v : Variant) (a : BitVec 7) (bus : Nat) (rest : List Request), tablesWf s.params.tables →
    s.requests = .create v a bus :: rest →
    (a ∉ s.params.tables.addrs → step s = .next { s with requests := rest }) ∧
    (a ∈ s.params.tables.addrs → ∃ r : Nat,
      step s = .next { s with
        requests := rest
        peers := s.peers ++ [⟨v, a, bus, s.params.initGain, r, .idle, none, none, []⟩] } ∧
      (spsList s.params.tables v)[r]? = some (if v = .lowRes then 1600 else 128) ∧
      (s.params.tables = defaultTables → r = 4))

/-! ## Invariants -/

/-- The state after reset is legal and Idle, with no value on the ports, nothing presented, an empty log and the default
rate 1600 SPS (70_reset_and_hazards R116; its variant, address, bus and gain are the model's choice, logs 2 and 3). -/
def Obligations.ResetIsLegalAndIdle : Prop :=
  State.reset.Inv ∧ State.reset.allIdle ∧ State.reset.h.status = none ∧ State.reset.h.result = none ∧
  State.reset.requests = [] ∧ State.reset.log = [] ∧ State.reset.devRegs = [] ∧ State.reset.h.rate = 4

/-- Every step keeps legal parameters, legal handles (address, gain and rate in their tables, a value only beside `OK`) and
the canonical form of the device registers (10_state R17, R19, R20, R15). -/
def Obligations.StepKeepsLegalStates : Prop :=
  ∀ s t : State, s.Inv → step s = .next t → t.Inv

/-- A step from a state with every handle Idle ends in one: the operation it runs has ended (00_scope R7, 42_protocol R83).
That one step is one whole operation, so that no step from such a state leaves a handle in the middle of one, is the model's
choice (log 1). -/
def Obligations.StepKeepsEveryHandleIdle : Prop :=
  ∀ s t : State, s.allIdle → step s = .next t → t.allIdle
end

