-- ==== Sys2Proof/Laws/Codec.lean ====
section
/-! SUPPORT. What the pure codec functions answer: one lemma per function, and the table lookups inside their tables. -/

namespace Sys2Proof.Machine

/-! ## Table lookups -/

theorem codeAt_of_get (codes : List (BitVec 3)) (i : Nat) (c : BitVec 3) (h : codes[i]? = some c) : codeAt codes i = c := by
  simp [codeAt, List.getD, h]

theorem sps_of_get (T : CodecTables) (v : Variant) (i r : Nat) (h : (spsList T v)[i]? = some r) : sps T v i = r := by
  simp [sps, List.getD, h]

/-- An index inside a table has an entry. -/
theorem codeAt_get (codes : List (BitVec 3)) (i : Nat) (h : i < codes.length) : codes[i]? = some (codeAt codes i) := by
  simp [codeAt, List.getD, List.getElem?_eq_getElem h]

/-! ## Configuration words -/

/-- ORing a fixed part with positioned codes is the word of those fields (30_encoding R43). -/
theorem fixedWord_or (b : FixedBits) (mux pga dr : BitVec 3) :
    fixedWord b ||| positioned mux 12 ||| positioned pga 9 ||| positioned dr 5 = kindWord b mux pga dr := by
  have h12 : positioned 0 12 = 0#16 := by decide
  have h9 : positioned 0 9 = 0#16 := by decide
  have h5 : positioned 0 5 = 0#16 := by decide
  simp only [fixedWord, kindWord, configWord, h12, h9, h5]
  generalize b.os.setWidth 16 <<< 15 = o, positioned mux 12 = m, positioned pga 9 = g, positioned dr 5 = d
  generalize b.mode.setWidth 16 <<< 8 = o1, b.cmode.setWidth 16 <<< 4 = o2, b.cpol.setWidth 16 <<< 3 = o3,
    b.clat.setWidth 16 <<< 2 = o4, b.cque.setWidth 16 = o5
  rw [BitVec.or_zero, BitVec.or_zero, BitVec.or_zero]
  ac_rfl

/-- The word a sequenced path writes, field by field. -/
theorem handleConfig_eq (b : FixedBits) (s : State) (mux pga dr : BitVec 3) (h : handleCodes s pga dr) :
    handleConfig b s.params.tables s.h (positioned mux 12) = kindWord b mux pga dr := by
  unfold handleConfig gainField rateField gainCode rateCode
  rw [codeAt_of_get _ _ _ h.1, codeAt_of_get _ _ _ h.2, fixedWord_or]

/-! ## Operand checks -/

theorem selCode_se (P : Params) (ch : Nat) : selCode P (.se ch) = P.tables.muxSe[ch]? := rfl

theorem selCode_diff (P : Params) (p : Nat) : selCode P (.diff p) =
    if P.extDiffPairs = false ∧ (p = 1 ∨ p = 2) then none else P.tables.muxDiff[p]? := rfl

theorem packInputSe_ok (T : CodecTables) (ch : Nat) (c : BitVec 3) (hch : ch ≤ 3) (h : T.muxSe[ch]? = some c) :
    packInputSe T ch = .ok (positioned c 12) := by
  unfold packInputSe muxSeCode
  rw [if_neg (by omega), codeAt_of_get _ _ _ h]

theorem packInputSe_error (T : CodecTables) (ch : Nat) (h : ch > 3) : packInputSe T ch = .error .invalidChannel := by
  simp [packInputSe, h]

theorem packInputDiff_ok (P : Params) (p : Nat) (c : BitVec 3) (hp : p ≤ 3) (h : selCode P (.diff p) = some c) :
    packInputDiff P p = .ok (positioned c 12) := by
  rw [selCode_diff] at h
  split at h
  · cases h
  · rename_i hx
    unfold packInputDiff muxDiffCode
    rw [if_neg (by omega), if_neg (fun he => hx ⟨he.2, he.1⟩), codeAt_of_get _ _ _ h]

theorem packInputDiff_error (P : Params) (p : Nat) (h : p > 3 ∨ ((p = 1 ∨ p = 2) ∧ P.extDiffPairs = false)) :
    packInputDiff P p = .error .invalidOperand := by
  unfold packInputDiff
  split
  · rfl
  · rw [if_pos (h.resolve_left ‹_›)]

/-- With legal tables a selector resolves to its code at bits 14:12, or raises its kind's status. -/
theorem resolveInput_eq (P : Params) (sel : Selector) (hT : tablesWf P.tables) :
    resolveInput P sel = match selCode P sel with
      | some c => .ok (positioned c 12)
      | none => .error (selError sel) := by
  cases sel with
  | se ch =>
    by_cases h : ch ≤ 3
    · have hc := codeAt_get P.tables.muxSe ch (by have := hT.1; omega)
      simp [resolveInput, selCode, packInputSe_ok _ _ _ h hc, hc]
    · have hn : P.tables.muxSe[ch]? = none := List.getElem?_eq_none (by have := hT.1; omega)
      simp [resolveInput, selCode, packInputSe_error _ _ (Nat.lt_of_not_le h), hn, selError]
  | diff p =>
    by_cases h : p > 3 ∨ ((p = 1 ∨ p = 2) ∧ P.extDiffPairs = false)
    · have hn : selCode P (.diff p) = none := by
        rw [selCode_diff]
        split
        · rfl
        · rename_i hx
          have hp := h.resolve_right (fun he => hx ⟨he.2, he.1⟩)
          exact List.getElem?_eq_none (by have := hT.2.1; omega)
      simp [resolveInput, packInputDiff_error P p h, hn, selError]
    · have hc : selCode P (.diff p) = some (codeAt P.tables.muxDiff p) := by
        rw [selCode_diff]
        rw [if_neg (fun hx => h (.inr ⟨hx.2, hx.1⟩))]
        exact codeAt_get _ _ (by have := hT.2.1; omega)
      simp [resolveInput, packInputDiff_ok P p _ (by omega) hc, hc]

/-- The builder's value, or the status of the first bad operand in the order `A`, `B`, `C`. -/
theorem buildConfig_eq (b : FixedBits) (P : Params) (g : Nat) (sel : Selector) (r : Nat) (hT : tablesWf P.tables) :
    buildConfig b P g sel r = match P.tables.gain[g]?, selCode P sel with
      | none, _ => .error .invalidOperand
      | some _, none => .error (selError sel)
      | some pga, some mux => if r > 7 then .error .invalidOperand else .ok (kindWord b mux pga (BitVec.ofNat 3 r)) := by
  have hlen := hT.2.2.2.1
  unfold buildConfig
  by_cases hg : g > 5
  · simp [if_pos hg, List.getElem?_eq_none (l := P.tables.gain) (i := g) (by omega)]
  · have hc := codeAt_get P.tables.gain g (by omega)
    rw [if_neg hg, hc, resolveInput_eq P sel hT]
    cases selCode P sel with
    | none => rfl
    | some mux => simp only [gainField, gainCode, fixedWord_or]

/-! ## Thresholds and results -/

theorem encodeThreshold_ok (k : Nat) (t : Word) (hk : k ≤ 15) (h : thresholdFits k t = true) :
    encodeThreshold k t = .ok (t <<< k) := by
  simp [encodeThreshold, Nat.not_lt.2 hk, h]

theorem encodeThreshold_error (k : Nat) (t : Word) (hk : k ≤ 15) (h : thresholdFits k t = false) :
    encodeThreshold k t = .error .thresholdOutOfRange := by
  simp [encodeThreshold, Nat.not_lt.2 hk, h]

/-- A threshold that fits loses no bit when shifted (40_codec R70). -/
theorem toInt_shiftLeft_of_fits (k : Nat) (t : Word) (hk : k ≤ 15) (h : thresholdFits k t = true) :
    (t <<< k).toInt = t.toInt * 2 ^ k := by
  simp only [thresholdFits, Bool.and_eq_true, decide_eq_true_eq] at h
  rw [BitVec.toInt_shiftLeft, Nat.shiftLeft_eq]
  have ht : ((t.toNat : Int)).bmod (2 ^ 16) = t.toInt := by simp [BitVec.toInt_eq_toNat_bmod]
  have h1 : ((t.toNat * 2 ^ k : Nat) : Int).bmod (2 ^ 16) = (t.toInt * 2 ^ k).bmod (2 ^ 16) := by
    push_cast
    rw [← ht]
    simp
  rw [h1]
  have e : (2 : Int) ^ 15 = 2 ^ (15 - k) * 2 ^ k := by rw [← pow_add, Nat.sub_add_cancel hk]
  have hp : (0 : Int) < 2 ^ k := by positivity
  have hlo := mul_le_mul_of_nonneg_right h.1 hp.le
  have hhi := mul_le_mul_of_nonneg_right h.2 hp.le
  have hone : (1 : Int) ≤ 2 ^ k := hp
  rw [neg_mul, ← e] at hlo
  rw [sub_mul, ← e, one_mul] at hhi
  apply Int.bmod_eq_of_le <;> norm_num at * <;> omega

/-- The decoder's shifts of 5 and more never extend (40_codec R69 (d)). -/
theorem decodeResult_ok (k : Nat) (raw : Word) (hk : k ≤ 15) : decodeResult k raw = .ok (decodeWord k raw) := by
  simp [decodeResult, Nat.not_lt.2 hk]

end Sys2Proof.Machine
end

