-- ==== Sys2Proof/Laws/Decode.lean ====
section
/-! SUPPORT. The decoder and the encoder: the fields of an assembled command word, the selector byte, and the reserved-byte
check. -/

namespace Sys2Proof

/-! ## Fields of an assembled word -/

theorem opOf_append (op a b c : Byte) : opOf (op ++ (a ++ (b ++ c))) = op.toNat := by
  unfold opOf
  congr 1
  ext i hi
  simp only [BitVec.getElem_extractLsb', BitVec.getLsbD_append]
  simp [show ¬ (24 + i < 24) from by omega, BitVec.getLsbD_eq_getElem hi]

theorem fieldA_append (op a b c : Byte) : fieldA (op ++ (a ++ (b ++ c))) = a.toNat := by
  unfold fieldA
  congr 1
  ext i hi
  simp only [BitVec.getElem_extractLsb', BitVec.getLsbD_append]
  simp [show 16 + i < 24 from by omega, BitVec.getLsbD_eq_getElem hi]

theorem fieldB_append (op a b c : Byte) : fieldB (op ++ (a ++ (b ++ c))) = b.toNat := by
  unfold fieldB
  congr 1
  ext i hi
  simp only [BitVec.getElem_extractLsb', BitVec.getLsbD_append]
  simp [show 8 + i < 24 from by omega, show 8 + i < 16 from by omega, BitVec.getLsbD_eq_getElem hi]

theorem fieldC_append (op a b c : Byte) : fieldC (op ++ (a ++ (b ++ c))) = c.toNat := by
  unfold fieldC
  congr 1
  ext i hi
  simp only [BitVec.getElem_extractLsb', BitVec.getLsbD_append]
  simp [show i < 24 from by omega, show i < 16 from by omega, hi]

/-- Decoding an assembled word is decoding its bytes. -/
theorem decode_append (op a b c : Byte) (d : Word) :
    decode (op ++ (a ++ (b ++ c))) d = decodeFields op.toNat a.toNat b.toNat c.toNat d := by
  unfold decode
  rw [opOf_append, fieldA_append, fieldB_append, fieldC_append]

/-- The same for an assembled word of numbers. -/
theorem decode_cmdWord (op a b c : Nat) (d : Word) (hop : op < 256) (ha : a < 256) (hb : b < 256) (hc : c < 256) :
    decode (cmdWord op a b c) d = decodeFields op a b c d := by
  unfold cmdWord
  rw [decode_append]
  simp [BitVec.toNat_ofNat, Nat.mod_eq_of_lt hop, Nat.mod_eq_of_lt ha, Nat.mod_eq_of_lt hb, Nat.mod_eq_of_lt hc]

/-! ## Selectors and reserved bytes -/

theorem selectorOf_toByte (sel : Selector) (h : sel.wellFormed = true) : selectorOf sel.toByte = sel := by
  cases sel <;> simp_all [Selector.wellFormed, selectorOf, Selector.toByte]

theorem toByte_lt (sel : Selector) (h : sel.wellFormed = true) : sel.toByte < 256 := by
  cases sel <;> simp_all [Selector.wellFormed, Selector.toByte] <;> omega

theorem selectorOf_wellFormed (b : Nat) (h : b < 256) : (selectorOf b).wellFormed = true := by
  unfold selectorOf
  split <;> simp [Selector.wellFormed] <;> omega

theorem toByte_selectorOf (b : Nat) : (selectorOf b).toByte = b := by
  unfold selectorOf
  split
  · rfl
  · simp only [Selector.toByte]; omega

/-- The check accepts exactly zero bytes. -/
theorem whenZero_eq_ok (l : List Nat) (i j : Instr) : whenZero l i = .ok j ↔ (∀ n ∈ l, n = 0) ∧ i = j := by
  unfold whenZero
  split <;> rename_i h
  · simp_all only [List.all_eq_true, beq_iff_eq, Except.ok.injEq]
    exact ⟨fun e => ⟨h, e⟩, fun e => e.2⟩
  · simp_all

end Sys2Proof
end

