-- ==== Sys2Proof/Laws/Memory.lean ====
section
/-! SUPPORT. The device register space: reads after writes, and that a write keeps the canonical form. -/

namespace Sys2Proof.Machine

@[simp] theorem Memory.read_nil (key : Nat) : Memory.read [] key = none := rfl

/-- A read after a write gives the value written at its key, and what it gave before at every other key. -/
theorem Memory.read_write (m : Memory) (key other : Nat) (w : Word) (hm : m.wf) :
    (m.write key w).read other = if other = key then some w else m.read other := by
  induction m with
  | nil => simp [Memory.write, Memory.read]
  | cons c rest ih =>
    obtain ⟨k, v⟩ := c
    have hrest : ∀ e ∈ rest, k < e.1 := fun e he => (List.pairwise_cons.1 hm).1 e he
    have ih := ih (List.pairwise_cons.1 hm).2
    unfold Memory.write
    split
    · simp [Memory.read]
    · split
      · subst key; simp only [Memory.read]; split <;> simp_all
      · simp only [Memory.read, ih]
        split
        · simp_all [eq_comm]
        · rfl

/-- Without the canonical form: a read at the key written gives the value written. -/
@[simp] theorem Memory.read_write_same (m : Memory) (key : Nat) (w : Word) : (m.write key w).read key = some w := by
  induction m with
  | nil => simp [Memory.write, Memory.read]
  | cons c rest ih =>
    unfold Memory.write
    split
    · simp [Memory.read]
    · split
      · simp_all [Memory.read]
      · simp_all [Memory.read]

/-- A write leaves what every other key reads as. -/
theorem Memory.read_write_other (m : Memory) (key other : Nat) (w : Word) (h : other ≠ key) :
    (m.write key w).read other = m.read other := by
  induction m with
  | nil => simp [Memory.write, Memory.read, h]
  | cons c rest ih =>
    unfold Memory.write
    split
    · simp [Memory.read, h]
    · split
      · subst key; simp [Memory.read, h]
      · simp [Memory.read, ih]

/-- The device registers at reset are in canonical form. -/
theorem State.reset_devRegs_wf : State.reset.devRegs.wf := List.Pairwise.nil

/-- A key in the written store was in the store or is the key written. -/
theorem Memory.mem_write (m : Memory) (key : Nat) (w : Word) (e : Nat × Word) (h : e ∈ m.write key w) :
    e.1 = key ∨ e ∈ m := by
  induction m with
  | nil => simp_all [Memory.write]
  | cons c rest ih =>
    unfold Memory.write at h
    split at h
    · rcases List.mem_cons.1 h with rfl | h
      · exact .inl rfl
      · exact .inr h
    · split at h
      · rcases List.mem_cons.1 h with rfl | h
        · simp_all
        · exact .inr (List.mem_cons_of_mem _ h)
      · rcases List.mem_cons.1 h with rfl | h
        · exact .inr (List.mem_cons_self)
        · exact (ih h).imp_right (List.mem_cons_of_mem _)

/-- Every write keeps the canonical form. -/
theorem Memory.write_wf (m : Memory) (key : Nat) (w : Word) (hm : m.wf) : (m.write key w).wf := by
  induction m with
  | nil => simp [Memory.write]
  | cons c rest ih =>
    obtain ⟨hk, hrest⟩ := List.pairwise_cons.1 hm
    unfold Memory.write
    split
    · refine List.pairwise_cons.2 ⟨fun e he => ?_, hm⟩
      rcases List.mem_cons.1 he with rfl | he
      · assumption
      · exact Nat.lt_trans ‹_› (hk e he)
    · split
      · exact List.pairwise_cons.2 ⟨hk, hrest⟩
      · refine List.pairwise_cons.2 ⟨fun e he => ?_, ih hrest⟩
        rcases Memory.mem_write rest key w e he with h | h
        · omega
        · exact hk e h

/-- A bus write, taken or not, keeps the canonical form. -/
theorem devAfterWrite_wf (m : Memory) (key : Nat) (w : Word) (a : WriteAnswer) (hm : m.wf) :
    (devAfterWrite m key w a).wf := by
  unfold devAfterWrite
  split
  · exact m.write_wf key w hm
  · exact hm

/-- A bus write leaves every other register of every device. -/
theorem devAfterWrite_read_other (m : Memory) (key other : Nat) (w : Word) (a : WriteAnswer) (h : other ≠ key) :
    (devAfterWrite m key w a).read other = m.read other := by
  unfold devAfterWrite
  split
  · exact m.read_write_other key other w h
  · rfl

/-- A successful write is in the device. -/
@[simp] theorem devAfterWrite_ok (m : Memory) (key : Nat) (w : Word) (a : WriteAnswer) (h : a.ok = true) :
    devAfterWrite m key w a = m.write key w := by
  simp [devAfterWrite, h]

/-- Distinct pointers of one device have distinct keys. -/
theorem devKey_ptr_inj (bus : Nat) (addr : BitVec 7) (p q : BitVec 2) (h : devKey bus addr p = devKey bus addr q) :
    p = q := by
  unfold devKey at h
  exact BitVec.eq_of_toNat_eq (by omega)

/-- A key names one bus, one address and one pointer. -/
theorem devKey_inj (bus bus' : Nat) (addr addr' : BitVec 7) (p q : BitVec 2)
    (h : devKey bus addr p = devKey bus' addr' q) : bus = bus' ∧ addr = addr' ∧ p = q := by
  unfold devKey at h
  have := addr.isLt; have := addr'.isLt; have := p.isLt; have := q.isLt
  exact ⟨by omega, BitVec.eq_of_toNat_eq (by omega), BitVec.eq_of_toNat_eq (by omega)⟩

end Sys2Proof.Machine
end

