-- ==== Sys2Proof/Laws/State.lean ====
section
/-! SUPPORT. One lemma per field per update of `State`, so that no later proof unfolds a record update; and how the
Environment's next answers look after each update. -/

namespace Sys2Proof.Machine

/-! ## The handle's bus log -/

@[simp] theorem Handle.logged_variant (h : Handle) (evs : List Event) : (h.logged evs).variant = h.variant := rfl
@[simp] theorem Handle.logged_addr (h : Handle) (evs : List Event) : (h.logged evs).addr = h.addr := rfl
@[simp] theorem Handle.logged_transport (h : Handle) (evs : List Event) : (h.logged evs).transport = h.transport := rfl
@[simp] theorem Handle.logged_gain (h : Handle) (evs : List Event) : (h.logged evs).gain = h.gain := rfl
@[simp] theorem Handle.logged_rate (h : Handle) (evs : List Event) : (h.logged evs).rate = h.rate := rfl
@[simp] theorem Handle.logged_phase (h : Handle) (evs : List Event) : (h.logged evs).phase = h.phase := rfl
@[simp] theorem Handle.logged_status (h : Handle) (evs : List Event) : (h.logged evs).status = h.status := rfl
@[simp] theorem Handle.logged_result (h : Handle) (evs : List Event) : (h.logged evs).result = h.result := rfl
@[simp] theorem Handle.logged_log (h : Handle) (evs : List Event) : (h.logged evs).log = h.log ++ evs := rfl
@[simp] theorem Handle.logged_nil (h : Handle) : h.logged [] = h := by simp [Handle.logged]
@[simp] theorem Handle.logged_logged (h : Handle) (evs evs' : List Event) :
    (h.logged evs).logged evs' = h.logged (evs ++ evs') := by
  simp [Handle.logged]

/-- What is appended survives the end of an operation. -/
@[simp] theorem ended_log (h : Handle) (st : Status) (y : Option Word) : (ended h st y).log = h.log := rfl

/-- `s.log` is the log in handle 0, so what an update does to it is what the update's `_h` lemma says. -/
@[simp] theorem State.log_eq (s : State) : s.log = s.h.log := rfl

/-! ## `setPhase` -/

@[simp] theorem State.setPhase_params (s : State) (p : Phase) : (s.setPhase p).params = s.params := rfl
@[simp] theorem State.setPhase_h (s : State) (p : Phase) : (s.setPhase p).h = { s.h with phase := p } := rfl
@[simp] theorem State.setPhase_peers (s : State) (p : Phase) : (s.setPhase p).peers = s.peers := rfl
@[simp] theorem State.setPhase_requests (s : State) (p : Phase) : (s.setPhase p).requests = s.requests := rfl
@[simp] theorem State.setPhase_devRegs (s : State) (p : Phase) : (s.setPhase p).devRegs = s.devRegs := rfl
@[simp] theorem State.setPhase_env (s : State) (p : Phase) : (s.setPhase p).env = s.env := rfl
@[simp] theorem State.setPhase_elapsed (s : State) (p : Phase) : (s.setPhase p).elapsed = s.elapsed := rfl

/-! ## `setGain` -/

@[simp] theorem State.setGain_params (s : State) (g : Nat) : (s.setGain g).params = s.params := rfl
@[simp] theorem State.setGain_h (s : State) (g : Nat) : (s.setGain g).h = { s.h with gain := g } := rfl
@[simp] theorem State.setGain_peers (s : State) (g : Nat) : (s.setGain g).peers = s.peers := rfl
@[simp] theorem State.setGain_requests (s : State) (g : Nat) : (s.setGain g).requests = s.requests := rfl
@[simp] theorem State.setGain_devRegs (s : State) (g : Nat) : (s.setGain g).devRegs = s.devRegs := rfl
@[simp] theorem State.setGain_env (s : State) (g : Nat) : (s.setGain g).env = s.env := rfl
@[simp] theorem State.setGain_elapsed (s : State) (g : Nat) : (s.setGain g).elapsed = s.elapsed := rfl

/-! ## `setRate` -/

@[simp] theorem State.setRate_params (s : State) (i : Nat) : (s.setRate i).params = s.params := rfl
@[simp] theorem State.setRate_h (s : State) (i : Nat) : (s.setRate i).h = { s.h with rate := i } := rfl
@[simp] theorem State.setRate_peers (s : State) (i : Nat) : (s.setRate i).peers = s.peers := rfl
@[simp] theorem State.setRate_requests (s : State) (i : Nat) : (s.setRate i).requests = s.requests := rfl
@[simp] theorem State.setRate_devRegs (s : State) (i : Nat) : (s.setRate i).devRegs = s.devRegs := rfl
@[simp] theorem State.setRate_env (s : State) (i : Nat) : (s.setRate i).env = s.env := rfl
@[simp] theorem State.setRate_elapsed (s : State) (i : Nat) : (s.setRate i).elapsed = s.elapsed := rfl

/-! ## `raise` -/

@[simp] theorem State.raise_params (s : State) (e : Status) : (s.raise e).params = s.params := rfl
@[simp] theorem State.raise_h (s : State) (e : Status) :
    (s.raise e).h = { s.h with status := some e, result := none, phase := .idle } := rfl
@[simp] theorem State.raise_peers (s : State) (e : Status) : (s.raise e).peers = s.peers := rfl
@[simp] theorem State.raise_requests (s : State) (e : Status) : (s.raise e).requests = s.requests := rfl
@[simp] theorem State.raise_devRegs (s : State) (e : Status) : (s.raise e).devRegs = s.devRegs := rfl
@[simp] theorem State.raise_env (s : State) (e : Status) : (s.raise e).env = s.env := rfl
@[simp] theorem State.raise_elapsed (s : State) (e : Status) : (s.raise e).elapsed = s.elapsed := rfl

/-! ## `ret` -/

@[simp] theorem State.ret_params (s : State) (v : Option Word) : (s.ret v).params = s.params := rfl
@[simp] theorem State.ret_h (s : State) (v : Option Word) :
    (s.ret v).h = { s.h with status := some .ok, result := v, phase := .idle } := rfl
@[simp] theorem State.ret_peers (s : State) (v : Option Word) : (s.ret v).peers = s.peers := rfl
@[simp] theorem State.ret_requests (s : State) (v : Option Word) : (s.ret v).requests = s.requests := rfl
@[simp] theorem State.ret_devRegs (s : State) (v : Option Word) : (s.ret v).devRegs = s.devRegs := rfl
@[simp] theorem State.ret_env (s : State) (v : Option Word) : (s.ret v).env = s.env := rfl
@[simp] theorem State.ret_elapsed (s : State) (v : Option Word) : (s.ret v).elapsed = s.elapsed := rfl

/-! ## `busWrite` -/

@[simp] theorem State.busWrite_params (s : State) (r : Reg) (v : Word) : (s.busWrite r v).params = s.params := rfl
@[simp] theorem State.busWrite_h (s : State) (r : Reg) (v : Word) : (s.busWrite r v).h =
    s.h.logged [.write s.h.transport s.h.addr (ptrOf s.params.tables r) v s.writeAnswer.ok] := rfl
@[simp] theorem State.busWrite_peers (s : State) (r : Reg) (v : Word) : (s.busWrite r v).peers = s.peers := rfl
@[simp] theorem State.busWrite_requests (s : State) (r : Reg) (v : Word) :
    (s.busWrite r v).requests = s.requests := rfl
@[simp] theorem State.busWrite_devRegs (s : State) (r : Reg) (v : Word) :
    (s.busWrite r v).devRegs = devAfterWrite s.devRegs (s.regKey r) v s.writeAnswer := rfl
@[simp] theorem State.busWrite_env (s : State) (r : Reg) (v : Word) : (s.busWrite r v).env = useWrite s.env := rfl
@[simp] theorem State.busWrite_elapsed (s : State) (r : Reg) (v : Word) : (s.busWrite r v).elapsed = s.elapsed := rfl

/-! ## `busRead` -/

@[simp] theorem State.busRead_params (s : State) (r : Reg) : (s.busRead r).params = s.params := rfl
@[simp] theorem State.busRead_h (s : State) (r : Reg) : (s.busRead r).h =
    s.h.logged [.read s.h.transport s.h.addr (ptrOf s.params.tables r) (readOk s.readAnswer) s.readAnswer.value] := rfl
@[simp] theorem State.busRead_peers (s : State) (r : Reg) : (s.busRead r).peers = s.peers := rfl
@[simp] theorem State.busRead_requests (s : State) (r : Reg) : (s.busRead r).requests = s.requests := rfl
@[simp] theorem State.busRead_devRegs (s : State) (r : Reg) : (s.busRead r).devRegs = s.devRegs := rfl
@[simp] theorem State.busRead_env (s : State) (r : Reg) : (s.busRead r).env = useRead s.env := rfl
@[simp] theorem State.busRead_elapsed (s : State) (r : Reg) : (s.busRead r).elapsed = s.elapsed := rfl

/-! ## `waitFor` -/

@[simp] theorem State.waitFor_params (s : State) (ms : Nat) : (s.waitFor ms).params = s.params := rfl
@[simp] theorem State.waitFor_h (s : State) (ms : Nat) : (s.waitFor ms).h = s.h.logged [.wait ms] := rfl
@[simp] theorem State.waitFor_peers (s : State) (ms : Nat) : (s.waitFor ms).peers = s.peers := rfl
@[simp] theorem State.waitFor_requests (s : State) (ms : Nat) : (s.waitFor ms).requests = s.requests := rfl
@[simp] theorem State.waitFor_devRegs (s : State) (ms : Nat) : (s.waitFor ms).devRegs = s.devRegs := rfl
@[simp] theorem State.waitFor_env (s : State) (ms : Nat) : (s.waitFor ms).env = useWait s.env := rfl
@[simp] theorem State.waitFor_elapsed (s : State) (ms : Nat) :
    (s.waitFor ms).elapsed = s.elapsed + ms + s.waitExtra := rfl

/-! ## The next answers -/

@[simp] theorem State.setPhase_writeAnswer (s : State) (p : Phase) : (s.setPhase p).writeAnswer = s.writeAnswer := rfl
@[simp] theorem State.setPhase_readAnswer (s : State) (p : Phase) : (s.setPhase p).readAnswer = s.readAnswer := rfl
@[simp] theorem State.setPhase_waitExtra (s : State) (p : Phase) : (s.setPhase p).waitExtra = s.waitExtra := rfl
@[simp] theorem State.setPhase_regKey (s : State) (p : Phase) (q : Reg) : (s.setPhase p).regKey q = s.regKey q := rfl
@[simp] theorem State.setPhase_delay (s : State) (p : Phase) : (s.setPhase p).delay = s.delay := rfl

@[simp] theorem State.setGain_writeAnswer (s : State) (g : Nat) : (s.setGain g).writeAnswer = s.writeAnswer := rfl
@[simp] theorem State.setGain_readAnswer (s : State) (g : Nat) : (s.setGain g).readAnswer = s.readAnswer := rfl
@[simp] theorem State.setGain_waitExtra (s : State) (g : Nat) : (s.setGain g).waitExtra = s.waitExtra := rfl
@[simp] theorem State.setGain_regKey (s : State) (g : Nat) (q : Reg) : (s.setGain g).regKey q = s.regKey q := rfl
@[simp] theorem State.setGain_delay (s : State) (g : Nat) : (s.setGain g).delay = s.delay := rfl

@[simp] theorem State.setRate_writeAnswer (s : State) (i : Nat) : (s.setRate i).writeAnswer = s.writeAnswer := rfl
@[simp] theorem State.setRate_readAnswer (s : State) (i : Nat) : (s.setRate i).readAnswer = s.readAnswer := rfl
@[simp] theorem State.setRate_waitExtra (s : State) (i : Nat) : (s.setRate i).waitExtra = s.waitExtra := rfl
@[simp] theorem State.setRate_regKey (s : State) (i : Nat) (q : Reg) : (s.setRate i).regKey q = s.regKey q := rfl

@[simp] theorem State.raise_writeAnswer (s : State) (e : Status) : (s.raise e).writeAnswer = s.writeAnswer := rfl
@[simp] theorem State.raise_readAnswer (s : State) (e : Status) : (s.raise e).readAnswer = s.readAnswer := rfl
@[simp] theorem State.raise_waitExtra (s : State) (e : Status) : (s.raise e).waitExtra = s.waitExtra := rfl
@[simp] theorem State.raise_regKey (s : State) (e : Status) (q : Reg) : (s.raise e).regKey q = s.regKey q := rfl
@[simp] theorem State.raise_delay (s : State) (e : Status) : (s.raise e).delay = s.delay := rfl

@[simp] theorem State.ret_writeAnswer (s : State) (v : Option Word) : (s.ret v).writeAnswer = s.writeAnswer := rfl
@[simp] theorem State.ret_readAnswer (s : State) (v : Option Word) : (s.ret v).readAnswer = s.readAnswer := rfl
@[simp] theorem State.ret_waitExtra (s : State) (v : Option Word) : (s.ret v).waitExtra = s.waitExtra := rfl
@[simp] theorem State.ret_regKey (s : State) (v : Option Word) (q : Reg) : (s.ret v).regKey q = s.regKey q := rfl
@[simp] theorem State.ret_delay (s : State) (v : Option Word) : (s.ret v).delay = s.delay := rfl

@[simp] theorem State.busWrite_readAnswer (s : State) (r : Reg) (v : Word) : (s.busWrite r v).readAnswer = s.readAnswer := by
  unfold State.readAnswer State.busWrite useWrite
  dsimp only
  split <;> rfl
@[simp] theorem State.busWrite_waitExtra (s : State) (r : Reg) (v : Word) : (s.busWrite r v).waitExtra = s.waitExtra := by
  unfold State.waitExtra State.busWrite useWrite
  dsimp only
  split <;> rfl
@[simp] theorem State.busWrite_regKey (s : State) (r : Reg) (v : Word) (q : Reg) : (s.busWrite r v).regKey q = s.regKey q := rfl
@[simp] theorem State.busWrite_delay (s : State) (r : Reg) (v : Word) : (s.busWrite r v).delay = s.delay := rfl

@[simp] theorem State.busRead_writeAnswer (s : State) (r : Reg) : (s.busRead r).writeAnswer = s.writeAnswer := by
  unfold State.writeAnswer State.busRead useRead
  dsimp only
  split <;> rfl
@[simp] theorem State.busRead_waitExtra (s : State) (r : Reg) : (s.busRead r).waitExtra = s.waitExtra := by
  unfold State.waitExtra State.busRead useRead
  dsimp only
  split <;> rfl
@[simp] theorem State.busRead_regKey (s : State) (r : Reg) (q : Reg) : (s.busRead r).regKey q = s.regKey q := rfl
@[simp] theorem State.busRead_delay (s : State) (r : Reg) : (s.busRead r).delay = s.delay := rfl

@[simp] theorem State.waitFor_writeAnswer (s : State) (ms : Nat) : (s.waitFor ms).writeAnswer = s.writeAnswer := by
  unfold State.writeAnswer State.waitFor useWait
  dsimp only
  split <;> rfl
@[simp] theorem State.waitFor_readAnswer (s : State) (ms : Nat) : (s.waitFor ms).readAnswer = s.readAnswer := by
  unfold State.readAnswer State.waitFor useWait
  dsimp only
  split <;> rfl
@[simp] theorem State.waitFor_regKey (s : State) (ms : Nat) (q : Reg) : (s.waitFor ms).regKey q = s.regKey q := rfl
@[simp] theorem State.waitFor_delay (s : State) (ms : Nat) : (s.waitFor ms).delay = s.delay := rfl

end Sys2Proof.Machine
end

