-- ==== Sys2Proof/Laws/Ops.lean ====
section
/-! SUPPORT. What each shared operation can do, said once: ending an operation, the two bus paths and their shared tail,
and exchanging handles. -/

namespace Sys2Proof.Machine

/-! ## Ending an operation -/

theorem State.raise_eq (s : State) (e : Status) : s.raise e = s.ended e none := rfl

theorem State.ret_eq (s : State) (v : Option Word) : s.ret v = s.ended .ok v := rfl

@[simp] theorem State.conclude_ok (s : State) (v : Word) : s.conclude (.ok v) = s.ended .ok (some v) := rfl

@[simp] theorem State.conclude_error (s : State) (e : Status) : s.conclude (.error e) = s.ended e none := rfl

@[simp] theorem State.ended_h (s : State) (st : Status) (y : Option Word) : (s.ended st y).h = Machine.ended s.h st y := rfl

@[simp] theorem State.ended_params (s : State) (st : Status) (y : Option Word) : (s.ended st y).params = s.params := rfl

/-- Concluding writes the ports and the phase and nothing else. -/
theorem State.conclude_cases (s : State) (r : Except Status Word) :
    (∃ v, r = .ok v ∧ s.conclude r = s.ended .ok (some v)) ∨ (∃ e, r = .error e ∧ s.conclude r = s.ended e none) := by
  cases r with
  | ok v => exact .inl ⟨v, rfl, rfl⟩
  | error e => exact .inr ⟨e, rfl, rfl⟩

theorem shiftOf_le (v : Variant) : shiftOf v ≤ 15 := by cases v <;> decide

/-! ## The bus paths, each as one state -/

/-- The shared tail (42_protocol R89): a wait, a read, and the end the read's answer gives. -/
theorem convertAndRead_eq (s : State) : convertAndRead s = { s with
    h := Machine.ended (s.h.logged [.wait s.delay, s.evR]) (if readOk s.readAnswer then .ok else .busReadFailed)
      (if readOk s.readAnswer then some (decodeWord (shiftOf s.h.variant) s.readAnswer.value) else none)
    env := useRead (useWait s.env)
    elapsed := s.elapsed + s.delay + s.waitExtra } := by
  unfold convertAndRead
  simp only [State.setPhase_readAnswer, State.waitFor_readAnswer, decodeResult_ok _ _ (shiftOf_le _), State.conclude_ok]
  split <;> apply State.ext <;> simp [*, State.ended, Machine.ended, State.evR]

/-- The read paths (42_protocol R90, R91): the configuration write, and the tail where it succeeds. -/
theorem readPath_eq (mux : Word) (s : State) : readPath mux s =
    let cfg := handleConfig s.params.tables.readFixed s.params.tables s.h mux
    if s.writeAnswer.ok then convertAndRead { s with
      h := s.h.logged [s.evW .config cfg true]
      devRegs := s.devRegs.write (s.regKey .config) cfg
      env := useWrite s.env }
    else { s with
      h := Machine.ended (s.h.logged [s.evW .config cfg false]) .busWriteFailed none
      devRegs := if s.writeAnswer.takenAnyway then s.devRegs.write (s.regKey .config) cfg else s.devRegs
      env := useWrite s.env } := by
  unfold readPath
  simp only [State.setPhase_writeAnswer]
  split
  · rename_i hok
    rw [convertAndRead_eq, convertAndRead_eq]
    have hr : ∀ h m, State.readAnswer { s with env := useWrite s.env, h := h, devRegs := m } = s.readAnswer ∧
        State.waitExtra { s with env := useWrite s.env, h := h, devRegs := m } = s.waitExtra := fun h m =>
      ⟨State.busWrite_readAnswer s .config 0, State.busWrite_waitExtra s .config 0⟩
    apply State.ext <;> simp [hok, Machine.ended, State.evR, State.evW, hr] <;> rfl
  · rename_i hok
    apply State.ext <;> simp [hok, Machine.ended, State.evW, devAfterWrite]

/-- The comparator path (42_protocol R92): the threshold write, then the configuration write, stopping at the first that
fails. -/
theorem armPath_eq (mux hi : Word) (s : State) : armPath mux hi s =
    let cfg := handleConfig s.params.tables.compFixed s.params.tables s.h mux
    let first := s.busWrite .hiThresh hi
    if s.writeAnswer.ok then { s with
      h := Machine.ended (s.h.logged [s.evW .hiThresh hi true, s.evW .config cfg first.writeAnswer.ok])
        (if first.writeAnswer.ok then .ok else .busWriteFailed) none
      devRegs := devAfterWrite (s.devRegs.write (s.regKey .hiThresh) hi) (s.regKey .config) cfg first.writeAnswer
      env := useWrite (useWrite s.env) }
    else { s with
      h := Machine.ended (s.h.logged [s.evW .hiThresh hi false]) .busWriteFailed none
      devRegs := if s.writeAnswer.takenAnyway then s.devRegs.write (s.regKey .hiThresh) hi else s.devRegs
      env := useWrite s.env } := by
  have hw : ((s.setPhase (.configuring (.armHigh mux hi))).busWrite .hiThresh hi).writeAnswer =
    (s.busWrite .hiThresh hi).writeAnswer := rfl
  simp only [armPath, State.setPhase_writeAnswer, hw]
  by_cases hok : s.writeAnswer.ok
  · by_cases h2 : (s.busWrite .hiThresh hi).writeAnswer.ok <;>
      simp only [hok, h2, if_true] <;> apply State.ext <;>
      simp [hok, h2, hw, Machine.ended, State.evW, devAfterWrite]
  · simp only [hok]
    apply State.ext <;> simp [hok, Machine.ended, State.evW, devAfterWrite]

/-! ## Several handles -/

@[simp] theorem State.swap_zero (s : State) : s.swap 0 = s := rfl

/-- Exchanging touches no more than which handle stands where. -/
theorem State.swap_frame (s : State) (k : Nat) : s.swap k = { s with h := (s.swap k).h, peers := (s.swap k).peers } := by
  cases k with
  | zero => rfl
  | succ k => cases hk : s.peers[k]? <;> simp [State.swap, hk]

@[simp] theorem State.swap_params (s : State) (k : Nat) : (s.swap k).params = s.params := by rw [State.swap_frame]
@[simp] theorem State.swap_requests (s : State) (k : Nat) : (s.swap k).requests = s.requests := by rw [State.swap_frame]
@[simp] theorem State.swap_devRegs (s : State) (k : Nat) : (s.swap k).devRegs = s.devRegs := by rw [State.swap_frame]
@[simp] theorem State.swap_env (s : State) (k : Nat) : (s.swap k).env = s.env := by rw [State.swap_frame]
@[simp] theorem State.swap_elapsed (s : State) (k : Nat) : (s.swap k).elapsed = s.elapsed := by rw [State.swap_frame]

/-- Handle `k` comes to the front. -/
theorem State.swap_h (s : State) (k : Nat) (h : Handle) (hk : s.handle k = some h) : (s.swap k).h = h := by
  cases k with
  | zero => simpa [State.handle] using hk
  | succ k =>
    have hk' : s.peers[k]? = some h := hk
    unfold State.swap
    simp only [hk']

/-- Exchanging, replacing the front handle by any other, and exchanging back replaces handle `k` alone. -/
theorem State.swap_swap_handle (s t : State) (k : Nat) (h : Handle) (hk : s.handle k = some h)
    (ht : t.peers = (s.swap k).peers) (j : Nat) : (t.swap k).handle j = if j = k then some t.h else s.handle j := by
  cases k with
  | zero =>
    cases j with
    | zero => rfl
    | succ j => simp [State.handle, State.swap] at *; rw [ht]
  | succ k =>
    have hk' : s.peers[k]? = some h := hk
    have hlt : k < s.peers.length := by
      rcases Nat.lt_or_ge k s.peers.length with hl | hl
      · exact hl
      · rw [List.getElem?_eq_none hl] at hk'; cases hk'
    have hp : t.peers = s.peers.set k s.h := by rw [ht]; unfold State.swap; simp only [hk']
    have htk : t.peers[k]? = some s.h := by rw [hp, List.getElem?_set_self hlt]
    unfold State.swap
    simp only [htk]
    cases j with
    | zero => simp [State.handle]
    | succ j =>
      simp only [State.handle, Nat.add_right_cancel_iff, hp, List.set_set]
      rw [List.getElem?_set]
      by_cases hjk : k = j
      · subst hjk; simp [hlt]
      · rw [if_neg hjk, if_neg (fun e => hjk e.symm)]

/-- The handles of a state are the front one and the further ones. -/
theorem State.mem_handles (s : State) (h : Handle) : h ∈ s.h :: s.peers ↔ ∃ k, s.handle k = some h := by
  constructor
  · intro hm
    rcases List.mem_cons.1 hm with rfl | hm
    · exact ⟨0, rfl⟩
    · obtain ⟨k, hk⟩ := List.mem_iff_getElem?.1 hm
      exact ⟨k + 1, hk⟩
  · rintro ⟨k, hk⟩
    cases k with
    | zero => cases hk; exact List.mem_cons_self
    | succ k => exact List.mem_cons_of_mem _ (List.mem_of_getElem? hk)

/-- Which handle is the first in progress. -/
theorem State.firstBusy_some (s : State) (pick : Handle → Bool) (j : Nat) (hj : s.firstBusy pick = some j) :
    ∃ h, s.handle j = some h ∧ busy h = true ∧ pick h = true := by
  unfold State.firstBusy at hj
  obtain ⟨hlt, hb, -⟩ := List.findIdx?_eq_some_iff_getElem.1 hj
  refine ⟨(s.h :: s.peers)[j], ?_, by simpa using hb⟩
  cases j with
  | zero => rfl
  | succ j => simp [State.handle]

/-- No handle is in progress among those picked. -/
theorem State.firstBusy_none (s : State) (pick : Handle → Bool) :
    s.firstBusy pick = none ↔ ∀ h ∈ s.h :: s.peers, pick h = true → h.phase = .idle := by
  unfold State.firstBusy busy
  rw [List.findIdx?_eq_none_iff]
  constructor
  · intro hb h hh hp
    have := hb h hh
    simp [hp] at this
    exact this
  · intro hb h hh
    have := hb h hh
    cases hp : pick h
    · simp
    · simp [this hp]

end Sys2Proof.Machine
end

