-- ==== Sys2Proof/Laws/Exec.lean ====
section
/-! SUPPORT. What each meaning can do, said once: the four shapes of bus traffic as one state each, and everything an
operation that answers a next state can have done. -/

namespace Sys2Proof.Machine

/-! ## Meanings of the sequenced operations -/

theorem exec_readSe (ch : Nat) (s : State) : exec (.readSe ch) s =
    .next (match packInputSe s.params.tables ch with
      | .ok mux => readPath mux s
      | .error e => s.raise e) := rfl

theorem exec_readDiff (p : Nat) (s : State) : exec (.readDiff p) s =
    .next (match packInputDiff s.params p with
      | .ok mux => readPath mux s
      | .error e => s.raise e) := rfl

theorem exec_startComparator (sel : Selector) (thr : Word) (s : State) : exec (.startComparator sel thr) s =
    .next (match resolveInput s.params sel with
      | .ok mux =>
        match encodeThreshold (shiftOf s.h.variant) thr with
        | .ok hi => armPath mux hi s
        | .error e => s.raise e
      | .error e => s.raise e) := rfl

theorem exec_getLastConversion (s : State) : exec .getLastConversion s = .next (convertAndRead s) := rfl

/-! ## What the bus paths leave -/

/-- The tail: a wait, a read, and a value exactly when the read went through. -/
theorem convertAndRead_form (s : State) : ∃ st y, convertAndRead s = { s with
      h := Machine.ended (s.h.logged [.wait s.delay, s.evR]) st y
      env := useRead (useWait s.env)
      elapsed := s.elapsed + s.delay + s.waitExtra } ∧
    ((st = .ok ∧ readOk s.readAnswer = true ∧ y ≠ none) ∨
      (st = .busReadFailed ∧ readOk s.readAnswer = false ∧ y = none)) := by
  rw [convertAndRead_eq]
  refine ⟨_, _, rfl, ?_⟩
  cases readOk s.readAnswer <;> simp

/-- The read paths: the configuration write, and where it went through the tail. -/
theorem readPath_form (mux : Word) (s : State) : ∃ cfg,
    (∃ st y, s.writeAnswer.ok = true ∧ readPath mux s = { s with
        h := Machine.ended (s.h.logged [s.evW .config cfg true, .wait s.delay, s.evR]) st y
        devRegs := s.devRegs.write (s.regKey .config) cfg
        env := useRead (useWait (useWrite s.env))
        elapsed := s.elapsed + s.delay + s.waitExtra } ∧
      ((st = .ok ∧ readOk s.readAnswer = true ∧ y ≠ none) ∨
        (st = .busReadFailed ∧ readOk s.readAnswer = false ∧ y = none))) ∨
    (s.writeAnswer.ok = false ∧ readPath mux s = { s with
        h := Machine.ended (s.h.logged [s.evW .config cfg false]) .busWriteFailed none
        devRegs := devAfterWrite s.devRegs (s.regKey .config) cfg s.writeAnswer
        env := useWrite s.env }) := by
  rw [readPath_eq]
  dsimp only
  refine ⟨handleConfig s.params.tables.readFixed s.params.tables s.h mux, ?_⟩
  cases hok : s.writeAnswer.ok
  · exact .inr ⟨rfl, by simp [devAfterWrite, hok]⟩
  · left
    rw [if_pos rfl]
    obtain ⟨st, y, he, hst⟩ := convertAndRead_form { s with
      h := s.h.logged [s.evW .config (handleConfig s.params.tables.readFixed s.params.tables s.h mux) true]
      devRegs := s.devRegs.write (s.regKey .config) (handleConfig s.params.tables.readFixed s.params.tables s.h mux)
      env := useWrite s.env }
    have hr : ∀ h m, State.readAnswer { s with env := useWrite s.env, h := h, devRegs := m } = s.readAnswer ∧
        State.waitExtra { s with env := useWrite s.env, h := h, devRegs := m } = s.waitExtra := fun h m =>
      ⟨State.busWrite_readAnswer s .config 0, State.busWrite_waitExtra s .config 0⟩
    refine ⟨st, y, rfl, ?_, by simpa [hr] using hst⟩
    rw [he]
    apply State.ext <;> simp [hr, State.evR] <;> rfl

/-- The comparator path: the threshold write, and where it went through the configuration write. -/
theorem armPath_form (mux hi : Word) (s : State) : ∃ cfg,
    (∃ ok, s.writeAnswer.ok = true ∧ ok = (s.busWrite .hiThresh hi).writeAnswer.ok ∧ armPath mux hi s = { s with
        h := Machine.ended (s.h.logged [s.evW .hiThresh hi true, s.evW .config cfg ok])
          (if ok then .ok else .busWriteFailed) none
        devRegs := devAfterWrite (s.devRegs.write (s.regKey .hiThresh) hi) (s.regKey .config) cfg
          (s.busWrite .hiThresh hi).writeAnswer
        env := useWrite (useWrite s.env) }) ∨
    (s.writeAnswer.ok = false ∧ armPath mux hi s = { s with
        h := Machine.ended (s.h.logged [s.evW .hiThresh hi false]) .busWriteFailed none
        devRegs := devAfterWrite s.devRegs (s.regKey .hiThresh) hi s.writeAnswer
        env := useWrite s.env }) := by
  rw [armPath_eq]
  dsimp only
  refine ⟨handleConfig s.params.tables.compFixed s.params.tables s.h mux, ?_⟩
  cases hok : s.writeAnswer.ok
  · exact .inr ⟨rfl, by simp [devAfterWrite, hok]⟩
  · exact .inl ⟨_, rfl, rfl, by rw [if_pos rfl]⟩

/-! ## Every operation -/

/-- Everything an operation can have done: it ended without touching more than the ports, or stored a handle field, or
went through one of the bus paths. -/
theorem exec_cases (i : Instr) (s t : State) (h : exec i s = .next t) :
    (∃ st y, t = s.ended st y ∧ i ≠ .getLastConversion ∧ (st ≠ .ok → y = none) ∧
      (st = .ok → y ≠ none ∧ i.valueless = false ∧ i.isSequenced = false)) ∨
    (∃ g, i = .setGain g ∧ g ≤ 5 ∧ t = { s with h := Machine.ended { s.h with gain := g } .ok none }) ∨
    (∃ r, i = .setRate r ∧ r < rateCount s.h.variant ∧
      t = { s with h := Machine.ended { s.h with rate := r } .ok none }) ∨
    (∃ ch mux, i = .readSe ch ∧ packInputSe s.params.tables ch = .ok mux ∧ t = readPath mux s) ∨
    (∃ p mux, i = .readDiff p ∧ packInputDiff s.params p = .ok mux ∧ t = readPath mux s) ∨
    (∃ sel thr mux hi, i = .startComparator sel thr ∧ resolveInput s.params sel = .ok mux ∧
      encodeThreshold (shiftOf s.h.variant) thr = .ok hi ∧ t = armPath mux hi s) ∨
    (i = .getLastConversion ∧ t = convertAndRead s) := by
  have raised : ∀ e : Status, e ≠ .ok → i ≠ .getLastConversion → ∃ st y, s.raise e = s.ended st y ∧
      i ≠ .getLastConversion ∧ (st ≠ .ok → y = none) ∧
      (st = .ok → y ≠ none ∧ i.valueless = false ∧ i.isSequenced = false) := fun e he hi =>
    ⟨e, none, rfl, hi, fun _ => rfl, fun h => absurd h he⟩
  have returned : ∀ v, i ≠ .getLastConversion → i.valueless = false → i.isSequenced = false →
      ∃ st y, s.ret (some v) = s.ended st y ∧ i ≠ .getLastConversion ∧ (st ≠ .ok → y = none) ∧
      (st = .ok → y ≠ none ∧ i.valueless = false ∧ i.isSequenced = false) := fun v hi hv hq =>
    ⟨.ok, some v, rfl, hi, fun h => absurd rfl h, fun _ => ⟨by simp, hv, hq⟩⟩
  have concluded : ∀ r : Except Status Word, r ≠ .error .ok → i.isCodec = true →
      ∃ st y, s.conclude r = s.ended st y ∧ i ≠ .getLastConversion ∧ (st ≠ .ok → y = none) ∧
      (st = .ok → y ≠ none ∧ i.valueless = false ∧ i.isSequenced = false) := by
    intro r hr hc
    have hk : i ≠ .getLastConversion ∧ i.valueless = false ∧ i.isSequenced = false := by
      cases i <;> first | exact ⟨by simp, rfl, rfl⟩ | cases hc
    cases r with
    | ok v => exact returned v hk.1 hk.2.1 hk.2.2
    | error e => exact raised e (fun he => hr (he ▸ rfl)) hk.1
  have inputSe : ∀ T ch, packInputSe T ch ≠ .error .ok := by
    intro T ch; unfold packInputSe; split <;> simp
  have inputDiff : ∀ P p, packInputDiff P p ≠ .error .ok := by
    intro P p; unfold packInputDiff; split <;> [simp; split <;> simp]
  have input : ∀ P sel, resolveInput P sel ≠ .error .ok := by
    intro P sel; cases sel <;> simp only [resolveInput] <;> [exact inputSe _ _; exact inputDiff _ _]
  have threshold : ∀ k t, encodeThreshold k t ≠ .error .ok := by
    intro k t; unfold encodeThreshold; split <;> [simp; split <;> simp]
  have built : ∀ b P g sel r, buildConfig b P g sel r ≠ .error .ok := by
    intro b P g sel r
    unfold buildConfig
    split
    · simp
    · split
      · rename_i e he; exact fun hx => input P sel (by rw [he]; cases hx; rfl)
      · split <;> simp
  cases i <;> injection h with h <;> subst h
  case packGain g => exact .inl (concluded _ (by unfold packGain; split <;> simp) rfl)
  case packInputSe ch => exact .inl (concluded _ (inputSe _ _) rfl)
  case packInputDiff p => exact .inl (concluded _ (inputDiff _ _) rfl)
  case packRate v r =>
    exact .inl (concluded _ (by unfold packRate; cases variantOf v <;> simp only <;> [simp; split <;> simp]) rfl)
  case buildReadConfig g sel r => exact .inl (concluded _ (built _ _ _ _ _) rfl)
  case buildComparatorConfig g sel r => exact .inl (concluded _ (built _ _ _ _ _) rfl)
  case decodeResult k raw => exact .inl (concluded _ (by unfold decodeResult; split <;> simp) rfl)
  case encodeThreshold k thr => exact .inl (concluded _ (threshold _ _) rfl)
  case samplesPerSecond => exact .inl (returned _ (by simp) rfl rfl)
  case bitShift => exact .inl (returned _ (by simp) rfl rfl)
  case rateRegisterBits => exact .inl (returned _ (by simp) rfl rfl)
  case conversionDelay => exact .inl (returned _ (by simp) rfl rfl)
  case getGain => exact .inl (returned _ (by simp) rfl rfl)
  case getRate => exact .inl (returned _ (by simp) rfl rfl)
  case getAddress => exact .inl (returned _ (by simp) rfl rfl)
  case setGain g =>
    split
    · exact .inl (raised _ (by simp) (by simp))
    · exact .inr (.inl ⟨g, rfl, by omega, rfl⟩)
  case setRate r =>
    split
    · exact .inl (raised _ (by simp) (by simp))
    · exact .inr (.inr (.inl ⟨r, rfl, by omega, rfl⟩))
  case readSe ch =>
    cases hm : packInputSe s.params.tables ch with
    | ok mux => exact .inr (.inr (.inr (.inl ⟨ch, mux, rfl, hm, rfl⟩)))
    | error e => exact .inl (raised e (fun he => inputSe _ _ (he ▸ hm)) (by simp))
  case readDiff p =>
    cases hm : packInputDiff s.params p with
    | ok mux => exact .inr (.inr (.inr (.inr (.inl ⟨p, mux, rfl, hm, rfl⟩))))
    | error e => exact .inl (raised e (fun he => inputDiff _ _ (he ▸ hm)) (by simp))
  case startComparator sel thr =>
    cases hm : resolveInput s.params sel with
    | error e => exact .inl (raised e (fun he => input _ _ (he ▸ hm)) (by simp))
    | ok mux =>
      cases ht : encodeThreshold (shiftOf s.h.variant) thr with
      | ok hi => exact .inr (.inr (.inr (.inr (.inr (.inl ⟨sel, thr, mux, hi, rfl, hm, ht, rfl⟩)))))
      | error e => exact .inl (raised e (fun he => threshold _ _ (he ▸ ht)) (by simp))
  case getLastConversion => exact .inr (.inr (.inr (.inr (.inr (.inr ⟨rfl, rfl⟩)))))

end Sys2Proof.Machine
end

