-- ==== Sys2Proof/Laws/PerInstr.lean ====
section
/-! SUPPORT. One law per operation: the encoded word meets the mask of the table row that names the operation
(30_encoding R54, R58). -/

namespace Sys2Proof.Laws.EncodingInTable

/-- The encoded word meets a row of the opcode table, and the row has the operation's name. -/
def Statement (i : Instr) : Prop :=
  ∃ row ∈ opcodeTable, row.mnemonic = i.mnemonic ∧ (encode i).cmd &&& row.mask = row.matchWord

/-- The mask and the match word of a row, byte by byte: a byte kept whole and a byte ignored. -/
theorem masked (op a b c ma mb mc : Byte) :
    (op ++ (a ++ (b ++ c))) &&& (0xFF#8 ++ (ma ++ (mb ++ mc))) = op ++ ((a &&& ma) ++ ((b &&& mb) ++ (c &&& mc))) := by
  have hop : op &&& 0xFF#8 = op := BitVec.and_allOnes
  rw [BitVec.and_append, BitVec.and_append, BitVec.and_append, hop]

/-- A row that uses `A` alone. -/
theorem maskA (op : Byte) (a : Nat) : cmdWord op.toNat a 0 0 &&& 0xFF00FFFF = op ++ (0#24) := by
  have h := masked (BitVec.ofNat 8 op.toNat) (BitVec.ofNat 8 a) 0 0 0x00#8 0xFF#8 0xFF#8
  have hz : BitVec.ofNat 8 a &&& 0x00#8 = 0#8 := BitVec.and_zero
  rw [hz, BitVec.ofNat_toNat, BitVec.setWidth_eq] at h
  unfold cmdWord
  rw [BitVec.ofNat_toNat, BitVec.setWidth_eq]
  exact h

/-- A row that uses `A` and `B`. -/
theorem maskAB (op : Byte) (a b : Nat) : cmdWord op.toNat a b 0 &&& 0xFF0000FF = op ++ (0#24) := by
  have h := masked (BitVec.ofNat 8 op.toNat) (BitVec.ofNat 8 a) (BitVec.ofNat 8 b) 0 0x00#8 0x00#8 0xFF#8
  have hz : ∀ n, BitVec.ofNat 8 n &&& 0x00#8 = 0#8 := fun _ => BitVec.and_zero
  rw [hz, hz, BitVec.ofNat_toNat, BitVec.setWidth_eq] at h
  unfold cmdWord
  rw [BitVec.ofNat_toNat, BitVec.setWidth_eq]
  exact h

/-- A row that uses `A`, `B` and `C`. -/
theorem maskABC (op : Byte) (a b c : Nat) : cmdWord op.toNat a b c &&& 0xFF000000 = op ++ (0#24) := by
  have h := masked (BitVec.ofNat 8 op.toNat) (BitVec.ofNat 8 a) (BitVec.ofNat 8 b) (BitVec.ofNat 8 c) 0x00#8 0x00#8 0x00#8
  have hz : ∀ n, BitVec.ofNat 8 n &&& 0x00#8 = 0#8 := fun _ => BitVec.and_zero
  rw [hz, hz, hz, BitVec.ofNat_toNat, BitVec.setWidth_eq] at h
  unfold cmdWord
  rw [BitVec.ofNat_toNat, BitVec.setWidth_eq]
  exact h

/-- The n-th row of the table is a row of the table. -/
theorem rowAt (n : Nat) (h : n < opcodeTable.length) : opcodeTable[n] ∈ opcodeTable := List.getElem_mem h

theorem packGain (g : Nat) : Statement (.packGain g) :=
  ⟨_, rowAt 0 (by decide), rfl, maskA 1#8 g⟩

theorem packInputSe (ch : Nat) : Statement (.packInputSe ch) :=
  ⟨_, rowAt 1 (by decide), rfl, maskA 2#8 ch⟩

theorem packInputDiff (p : Nat) : Statement (.packInputDiff p) :=
  ⟨_, rowAt 2 (by decide), rfl, maskA 3#8 p⟩

theorem packRate (v : Nat) (r : Nat) : Statement (.packRate v r) :=
  ⟨_, rowAt 3 (by decide), rfl, maskAB 4#8 v r⟩

theorem buildReadConfig (g : Nat) (sel : Selector) (r : Nat) : Statement (.buildReadConfig g sel r) :=
  ⟨_, rowAt 4 (by decide), rfl, maskABC 5#8 g sel.toByte r⟩

theorem buildComparatorConfig (g : Nat) (sel : Selector) (r : Nat) : Statement (.buildComparatorConfig g sel r) :=
  ⟨_, rowAt 5 (by decide), rfl, maskABC 6#8 g sel.toByte r⟩

theorem decodeResult (k : Nat) (raw : Word) : Statement (.decodeResult k raw) :=
  ⟨_, rowAt 6 (by decide), rfl, maskA 7#8 k⟩

theorem encodeThreshold (k : Nat) (thr : Word) : Statement (.encodeThreshold k thr) :=
  ⟨_, rowAt 7 (by decide), rfl, maskA 8#8 k⟩

theorem samplesPerSecond : Statement .samplesPerSecond :=
  ⟨_, rowAt 8 (by decide), rfl, by decide⟩

theorem bitShift : Statement .bitShift :=
  ⟨_, rowAt 9 (by decide), rfl, by decide⟩

theorem rateRegisterBits : Statement .rateRegisterBits :=
  ⟨_, rowAt 10 (by decide), rfl, by decide⟩

theorem conversionDelay : Statement .conversionDelay :=
  ⟨_, rowAt 11 (by decide), rfl, by decide⟩

theorem setGain (g : Nat) : Statement (.setGain g) :=
  ⟨_, rowAt 12 (by decide), rfl, maskA 32#8 g⟩

theorem getGain : Statement .getGain :=
  ⟨_, rowAt 13 (by decide), rfl, by decide⟩

theorem setRate (r : Nat) : Statement (.setRate r) :=
  ⟨_, rowAt 14 (by decide), rfl, maskA 34#8 r⟩

theorem getRate : Statement .getRate :=
  ⟨_, rowAt 15 (by decide), rfl, by decide⟩

theorem getAddress : Statement .getAddress :=
  ⟨_, rowAt 16 (by decide), rfl, by decide⟩

theorem readSe (ch : Nat) : Statement (.readSe ch) :=
  ⟨_, rowAt 17 (by decide), rfl, maskA 48#8 ch⟩

theorem readDiff (p : Nat) : Statement (.readDiff p) :=
  ⟨_, rowAt 18 (by decide), rfl, maskA 49#8 p⟩

theorem startComparator (sel : Selector) (thr : Word) : Statement (.startComparator sel thr) :=
  ⟨_, rowAt 19 (by decide), rfl, maskA 50#8 sel.toByte⟩

theorem getLastConversion : Statement .getLastConversion :=
  ⟨_, rowAt 20 (by decide), rfl, by decide⟩

end Sys2Proof.Laws.EncodingInTable
end

