-- ==== Sys2Proof/Laws/Step.lean ====
section
/-! SUPPORT. What one step can do, said once. -/

namespace Sys2Proof.Machine

@[simp] theorem onHandle_zero (run : State → Host.Outcome State Fault Refusal) (s : State) : onHandle 0 run s = run s := by
  unfold onHandle
  rw [State.swap_zero]
  cases run s <;> rfl

/-- Running on a handle answers a next state exactly when the run does. -/
theorem onHandle_next (k : Nat) (run : State → Host.Outcome State Fault Refusal) (s t : State) :
    onHandle k run s = .next t ↔ ∃ u, run (s.swap k) = .next u ∧ t = u.swap k := by
  unfold onHandle
  cases run (s.swap k) <;> simp [eq_comm]

/-- A request of a handle whose bus is free is served. -/
theorem serve_free (k : Nat) (rest : List Request) (run : State → Host.Outcome State Fault Refusal) (s : State)
    (target : Handle) (hk : s.handle k = some target)
    (hfree : ∀ h ∈ s.h :: s.peers, h.transport = target.transport → h.phase = .idle) :
    serve k rest run s = onHandle k run { s with requests := rest } := by
  unfold serve
  rw [hk]
  dsimp only
  rw [(State.firstBusy_none s _).2 (fun h hh hp => hfree h hh (by simpa using hp))]

/-- A request of a handle whose bus is busy is held, and a handle in progress on that bus makes a transition. -/
theorem serve_held (k : Nat) (rest : List Request) (run : State → Host.Outcome State Fault Refusal) (s : State)
    (target : Handle) (hk : s.handle k = some target)
    (hbusy : ¬ ∀ h ∈ s.h :: s.peers, h.transport = target.transport → h.phase = .idle) :
    ∃ j other, s.handle j = some other ∧ other.phase ≠ .idle ∧ other.transport = target.transport ∧
      serve k rest run s = .next ((advance (s.swap j)).swap j) := by
  unfold serve
  rw [hk]
  dsimp only
  cases hj : s.firstBusy (fun h => h.transport == target.transport) with
  | none =>
    exact absurd (fun h hh ht => (State.firstBusy_none s _).1 hj h hh (by simpa using ht)) hbusy
  | some j =>
    obtain ⟨other, ho, hb, hp⟩ := State.firstBusy_some s _ j hj
    exact ⟨j, other, ho, by simpa [busy] using hb, by simpa using hp, rfl⟩

/-- With the bus of handle 0 free, the step runs the word that stands on its ports. -/
theorem step_present (s : State) (cmd : CmdWord) (d : Word) (hs : s.ready) :
    step { s with requests := .operation 0 cmd d :: s.requests } = runWord cmd d s := by
  have he := serve_free 0 s.requests (runWord cmd d) { s with requests := .operation 0 cmd d :: s.requests } s.h rfl hs
  rw [onHandle_zero] at he
  exact he

/-- Everything a step that answers a next state can have done. -/
theorem step_next (s t : State) (h : step s = .next t) :
    t = s ∨
    (∃ j other, s.handle j = some other ∧ other.phase ≠ .idle ∧ t = (advance (s.swap j)).swap j) ∨
    (∃ rest k target run u, s.handle k = some target ∧ run (State.swap { s with requests := rest } k) = .next u ∧
      t = u.swap k ∧ ((∃ cmd d, run = runWord cmd d) ∨ run = readResult)) ∨
    (∃ rest v addr bus, t = createPeer v addr bus { s with requests := rest }) := by
  have served : ∀ k rest run, serve k rest run s = .next t → ((∃ cmd d, run = runWord cmd d) ∨ run = readResult) →
      (∃ j other, s.handle j = some other ∧ other.phase ≠ .idle ∧ t = (advance (s.swap j)).swap j) ∨
      (∃ rest k target run u, s.handle k = some target ∧ run (State.swap { s with requests := rest } k) = .next u ∧
        t = u.swap k ∧ ((∃ cmd d, run = runWord cmd d) ∨ run = readResult)) := by
    intro k rest run hs hrun
    cases hk : s.handle k with
    | none => simp [serve, hk] at hs
    | some target =>
      by_cases hfree : ∀ h ∈ s.h :: s.peers, h.transport = target.transport → h.phase = .idle
      · rw [serve_free k rest run s target hk hfree] at hs
        obtain ⟨u, hu, rfl⟩ := (onHandle_next k run _ t).1 hs
        exact .inr ⟨rest, k, target, run, u, hk, hu, rfl, hrun⟩
      · obtain ⟨j, other, ho, hp, -, he⟩ := serve_held k rest run s target hk hfree
        rw [he] at hs
        cases hs
        exact .inl ⟨j, other, ho, hp, rfl⟩
  unfold step stepState at h
  cases hr : s.requests with
  | nil =>
    simp only [hr] at h
    unfold waitForRequest at h
    split at h
    · rename_i j hj
      obtain ⟨other, ho, hb, -⟩ := State.firstBusy_some s _ j hj
      cases h
      exact .inr (.inl ⟨j, other, ho, by simpa [busy] using hb, rfl⟩)
    · cases h
      exact .inl rfl
  | cons r rest =>
    simp only [hr] at h
    cases r with
    | operation k cmd d => exact .inr ((served k rest _ h (.inl ⟨cmd, d, rfl⟩)).imp_right .inl)
    | readResult k => exact .inr ((served k rest _ h (.inr rfl)).imp_right .inl)
    | create v addr bus =>
      cases h
      exact .inr (.inr (.inr ⟨rest, v, addr, bus, rfl⟩))

end Sys2Proof.Machine
end

