-- ==== Sys2Proof/Tests/Slice0.lean ====
section
/-! SUPPORT. Small named tests. Expected values are the vectors of 95_test_vectors (their ids stand beside the tests) or
the examples of the rule named; the last part shows, for each statement with hypotheses, inputs that meet them. -/

namespace Sys2Proof.Tests

open Sys2Proof.Machine

/-! ## Helpers -/

/-- The handle `HL` of 95_test_vectors section 0. -/
def HL : State := State.reset

/-- The handle `HH` of 95_test_vectors section 0. -/
def HH : State := { State.reset with h := newHandle defaultParams .highRes 0x49 0 }

/-- With a gain and a rate index stored. -/
def set (s : State) (gain rate : Nat) : State := { s with h := { s.h with gain := gain, rate := rate } }

/-- With `EXT_DIFF_PAIRS = false`. -/
def basicPairs (s : State) : State := { s with params := { s.params with extDiffPairs := false } }

/-- With the Environment's answers fixed: writes by their `ok`, reads by their `ok` and value, waits exact. -/
def answering (s : State) (writes : List Bool) (reads : List (Bool × Word)) : State :=
  { s with env := { s.env with
      writeAnswers := writes.map (fun ok => ⟨ok, false⟩)
      readAnswers := reads.map (fun r => ⟨r.1, 2, r.2⟩)
      waitExtras := [0] } }

/-- The ports after one step on a command word. -/
def ports (s : State) (cmd : CmdWord) (d : Word) : Option (Option Status × Option Word) :=
  match step { s with requests := [.operation 0 cmd d] } with
  | .next t => some (t.h.status, t.h.result)
  | .fault _ => none
  | .refused _ => none

/-- The ports and the bus log after one step on a command word. -/
def traffic (s : State) (cmd : CmdWord) (d : Word) : Option (Option Status × Option Word × List Event) :=
  match step { s with requests := [.operation 0 cmd d] } with
  | .next t => some (t.h.status, t.h.result, t.log)
  | .fault _ => none
  | .refused _ => none

/-- The gain and the rate after one step on a command word. -/
def fields (s : State) (cmd : CmdWord) : Option (Nat × Nat) :=
  match step { s with requests := [.operation 0 cmd 0] } with
  | .next t => some (t.h.gain, t.h.rate)
  | .fault _ => none
  | .refused _ => none

/-! ## Well-formedness: an operand no byte can spell is refused -/

theorem test_wf_packGain : (Instr.packGain 256).wellFormed = false := by decide
theorem test_wf_packInputSe : (Instr.packInputSe 256).wellFormed = false := by decide
theorem test_wf_packInputDiff : (Instr.packInputDiff 256).wellFormed = false := by decide
theorem test_wf_packRate : (Instr.packRate 256 0).wellFormed = false ∧ (Instr.packRate 0 256).wellFormed = false := by
  decide
theorem test_wf_buildReadConfig : (Instr.buildReadConfig 256 (.se 0) 0).wellFormed = false ∧
    (Instr.buildReadConfig 0 (.se 128) 0).wellFormed = false ∧
    (Instr.buildReadConfig 0 (.se 0) 256).wellFormed = false := by decide
theorem test_wf_buildComparatorConfig : (Instr.buildComparatorConfig 256 (.se 0) 0).wellFormed = false ∧
    (Instr.buildComparatorConfig 0 (.diff 128) 0).wellFormed = false ∧
    (Instr.buildComparatorConfig 0 (.se 0) 256).wellFormed = false := by decide
theorem test_wf_decodeResult : (Instr.decodeResult 256 0).wellFormed = false := by decide
theorem test_wf_encodeThreshold : (Instr.encodeThreshold 256 0).wellFormed = false := by decide
theorem test_wf_setGain : (Instr.setGain 256).wellFormed = false := by decide
theorem test_wf_setRate : (Instr.setRate 256).wellFormed = false := by decide
theorem test_wf_readSe : (Instr.readSe 256).wellFormed = false := by decide
theorem test_wf_readDiff : (Instr.readDiff 256).wellFormed = false := by decide
theorem test_wf_startComparator : (Instr.startComparator (.se 128) 0).wellFormed = false ∧
    (Instr.startComparator (.diff 128) 0).wellFormed = false := by decide

/-! ## Decoding: a word of every operation, byte by byte from its row of 30_encoding R54 -/

theorem test_decode_packGain : decode (0x01#8 ++ (0x05#8 ++ (0x00#8 ++ 0x00#8))) 0 = .ok (.packGain 5) := rfl
theorem test_decode_packInputSe : decode (0x02#8 ++ (0x03#8 ++ (0x00#8 ++ 0x00#8))) 0 = .ok (.packInputSe 3) := rfl
theorem test_decode_packInputDiff : decode (0x03#8 ++ (0x02#8 ++ (0x00#8 ++ 0x00#8))) 0 = .ok (.packInputDiff 2) := rfl
theorem test_decode_packRate : decode (0x04#8 ++ (0x01#8 ++ (0x07#8 ++ 0x00#8))) 0 = .ok (.packRate 1 7) := rfl
theorem test_decode_buildReadConfig :
    decode (0x05#8 ++ (0x05#8 ++ (0x83#8 ++ 0x06#8))) 0 = .ok (.buildReadConfig 5 (.diff 3) 6) := rfl
theorem test_decode_buildComparatorConfig :
    decode (0x06#8 ++ (0x01#8 ++ (0x02#8 ++ 0x04#8))) 0 = .ok (.buildComparatorConfig 1 (.se 2) 4) := rfl
theorem test_decode_decodeResult :
    decode (0x07#8 ++ (0x04#8 ++ (0x00#8 ++ 0x00#8))) 0x8000 = .ok (.decodeResult 4 0x8000) := rfl
theorem test_decode_encodeThreshold :
    decode (0x08#8 ++ (0x04#8 ++ (0x00#8 ++ 0x00#8))) 0x03E8 = .ok (.encodeThreshold 4 0x03E8) := rfl
theorem test_decode_samplesPerSecond : decode (0x10#8 ++ (0x00#8 ++ (0x00#8 ++ 0x00#8))) 0 = .ok .samplesPerSecond := rfl
theorem test_decode_bitShift : decode (0x11#8 ++ (0x00#8 ++ (0x00#8 ++ 0x00#8))) 0 = .ok .bitShift := rfl
theorem test_decode_rateRegisterBits : decode (0x12#8 ++ (0x00#8 ++ (0x00#8 ++ 0x00#8))) 0 = .ok .rateRegisterBits := rfl
theorem test_decode_conversionDelay : decode (0x13#8 ++ (0x00#8 ++ (0x00#8 ++ 0x00#8))) 0 = .ok .conversionDelay := rfl
theorem test_decode_setGain : decode (0x20#8 ++ (0x05#8 ++ (0x00#8 ++ 0x00#8))) 0 = .ok (.setGain 5) := rfl
theorem test_decode_getGain : decode (0x21#8 ++ (0x00#8 ++ (0x00#8 ++ 0x00#8))) 0 = .ok .getGain := rfl
theorem test_decode_setRate : decode (0x22#8 ++ (0x06#8 ++ (0x00#8 ++ 0x00#8))) 0 = .ok (.setRate 6) := rfl
theorem test_decode_getRate : decode (0x23#8 ++ (0x00#8 ++ (0x00#8 ++ 0x00#8))) 0 = .ok .getRate := rfl
theorem test_decode_getAddress : decode (0x24#8 ++ (0x00#8 ++ (0x00#8 ++ 0x00#8))) 0 = .ok .getAddress := rfl
theorem test_decode_readSe : decode (0x30#8 ++ (0x03#8 ++ (0x00#8 ++ 0x00#8))) 0 = .ok (.readSe 3) := rfl
theorem test_decode_readDiff : decode (0x31#8 ++ (0x03#8 ++ (0x00#8 ++ 0x00#8))) 0 = .ok (.readDiff 3) := rfl
theorem test_decode_startComparator :
    decode (0b00110010#8 ++ (0b10000000#8 ++ (0x00#8 ++ 0x00#8))) 0x0064 = .ok (.startComparator (.diff 0) 0x0064) := rfl
theorem test_decode_getLastConversion : decode (0x33#8 ++ (0x00#8 ++ (0x00#8 ++ 0x00#8))) 0 = .ok .getLastConversion := rfl

/-- Section 2.9: words that are no operation. -/
theorem test_decode_unassigned :
    [0x00000000#32, 0x09000000#32, 0x0F000000#32, 0x14000000#32, 0x25000000#32, 0x34000000#32, 0xFF000000#32].map
      (fun w => decodeTableWord 32 w.toNat) = List.replicate 7 none := by decide

/-- Section 2.9: a byte that must be zero. -/
theorem test_decode_reserved :
    [0x01000001#32, 0x04000401#32, 0x10000001#32, 0x24010000#32, 0x33000100#32].map
      (fun w => decodeTableWord 32 w.toNat) = List.replicate 5 none := by decide

/-- 30_encoding R60: assembler text. -/
theorem test_asm : (Instr.startComparator (.se 0) 0xFFFF).asm = "START_COMPARATOR se(0), -1" ∧
    (Instr.packRate 0 6).asm = "PACK_RATE lowres, 6" ∧ Instr.getGain.asm = "GET_GAIN" := by decide

/-- The host's word reaches `step`: `GET_ADDRESS` on the reset handle (H4). -/
theorem test_withFetchWord :
    (match step (State.reset.withFetchWord 32 0x24000000) with
      | .next t => t.h.result
      | .fault _ => none
      | .refused _ => none) = some 0x0048 := by decide

/-! ## Codec operations (section 2.1 to 2.5) -/

/-- P6, P7. -/
theorem test_packGain : ports HL 0x01050000 0 = some (some .ok, some 0x0A00) ∧
    ports HL 0x01060000 0 = some (some .invalidOperand, none) := by decide
/-- An ignored `D` (section 2.9) and a reserved byte (P9). -/
theorem test_packGain_ports : ports HL 0x01010000 0xFFFF = some (some .ok, some 0x0200) ∧
    ports HL 0x01000100 0 = some (some .illegalOperation, none) := by decide
/-- P13, P14. -/
theorem test_packInputSe : ports HL 0x02030000 0 = some (some .ok, some 0x7000) ∧
    ports HL 0x02040000 0 = some (some .invalidChannel, none) := by decide
/-- P19, P21. -/
theorem test_packInputDiff : ports HL 0x03020000 0 = some (some .ok, some 0x2000) ∧
    ports HL 0x03040000 0 = some (some .invalidOperand, none) := by decide
/-- P23, P24. -/
theorem test_packInputDiff_basicPairs : ports (basicPairs HL) 0x03020000 0 = some (some .invalidOperand, none) ∧
    ports (basicPairs HL) 0x03030000 0 = some (some .ok, some 0x3000) := by decide
/-- P27, P28. -/
theorem test_packRate_lowRes : ports HL 0x04000600 0 = some (some .ok, some 0x00C0) ∧
    ports HL 0x04000700 0 = some (some .invalidOperand, none) := by decide
/-- P31, P33, P34. -/
theorem test_packRate_highRes : ports HL 0x04010700 0 = some (some .ok, some 0x00E0) ∧
    ports HL 0x04020000 0 = some (some .invalidOperand, none) ∧
    ports HL 0x04020001 0 = some (some .illegalOperation, none) := by decide
/-- B4, B6, B8. -/
theorem test_buildReadConfig : ports HL 0x05058306 0 = some (some .ok, some 0xBBC3) ∧
    ports HL 0x05048100 0 = some (some .ok, some 0x9903) ∧ ports HL 0x05000007 0 = some (some .ok, some 0xC1E3) := by decide
/-- B14, B15, B13: which of several bad operands is reported. -/
theorem test_buildReadConfig_order : ports HL 0x05060408 0 = some (some .invalidOperand, none) ∧
    ports HL 0x05000408 0 = some (some .invalidChannel, none) ∧
    ports HL 0x05000008 0 = some (some .invalidOperand, none) := by decide
/-- B18, B20, B21. -/
theorem test_buildComparatorConfig : ports HL 0x06010204 0 = some (some .ok, some 0x6284) ∧
    ports HL 0x06050307 0 = some (some .ok, some 0x7AE4) ∧
    ports HL 0x06000404 0 = some (some .invalidChannel, none) := by decide
/-- S4, S5, S6. -/
theorem test_decodeResult_shift4 : ports HL 0x07040000 0x8000 = some (some .ok, some 0xF800) ∧
    ports HL 0x07040000 0x07F0 = some (some .ok, some 127) ∧ ports HL 0x07040000 0x0FFF = some (some .ok, some 255) := by
  decide
/-- 40_codec R69 (c), S18, and a shift above 15. -/
theorem test_decodeResult_corners : ports HL 0x07020000 0x4000 = some (some .ok, some 0xF000) ∧
    ports HL 0x07000000 0x0800 = some (some .ok, some 0x0800) ∧
    ports HL 0x07100000 0 = some (some .invalidOperand, none) := by decide
/-- 40_codec R92's 16000, and T13, T12. -/
theorem test_encodeThreshold : ports HL 0x08040000 0x03E8 = some (some .ok, some 0x3E80) ∧
    ports HL 0x080F0000 0x0001 = some (some .thresholdOutOfRange, none) ∧
    ports HL 0x080F0000 0xFFFF = some (some .ok, some 0x8000) := by decide
/-- T14, and Program 5 step 6. -/
theorem test_encodeThreshold_corners : ports HL 0x08100000 0 = some (some .invalidOperand, none) ∧
    ports HL 0x08040000 0xFB5C = some (some .ok, some 0xB5C0) := by decide

/-! ## Lookups (section 2.6) -/

/-- S16, S17. -/
theorem test_samplesPerSecond : ports HL 0x10000000 0 = some (some .ok, some 1600) ∧
    ports (set HH 0 7) 0x10000000 0 = some (some .ok, some 860) := by decide
/-- S16, S17. -/
theorem test_bitShift : ports HL 0x11000000 0 = some (some .ok, some 4) ∧
    ports HH 0x11000000 0 = some (some .ok, some 0) := by decide
/-- Section 2.6. -/
theorem test_rateRegisterBits : ports (set HL 0 6) 0x12000000 0 = some (some .ok, some 0x00C0) ∧
    ports (set HH 0 7) 0x12000000 0 = some (some .ok, some 0x00E0) := by decide
/-- S9, S10, S11. -/
theorem test_conversionDelay : ports HL 0x13000000 0 = some (some .ok, some 2) ∧
    ports HH 0x13000000 0 = some (some .ok, some 9) ∧ ports (set HH 0 0) 0x13000000 0 = some (some .ok, some 126) := by decide

/-! ## Handle accessors (section 2.7) -/

/-- H6, H7. -/
theorem test_setGain : ports HL 0x20050000 0 = some (some .ok, none) ∧ fields HL 0x20050000 = some (5, 4) ∧
    fields (set HL 3 4) 0x20060000 = some (3, 4) := by decide
/-- H13. -/
theorem test_setGain_reserved : ports HL 0x20000001 0 = some (some .illegalOperation, none) := by decide
/-- H1, H12. -/
theorem test_getGain : ports (set HL 5 4) 0x21000000 0 = some (some .ok, some 5) ∧
    ports HL 0x21010000 0 = some (some .illegalOperation, none) := by decide
/-- H8, H9, H10, H11. -/
theorem test_setRate : fields HL 0x22060000 = some (0, 6) ∧
    ports HL 0x22070000 0 = some (some .invalidOperand, none) ∧ fields HH 0x22070000 = some (0, 7) ∧
    ports HH 0x22080000 0 = some (some .invalidOperand, none) := by decide
/-- H2, H3. -/
theorem test_getRate : ports HL 0x23000000 0 = some (some .ok, some 4) ∧
    ports HH 0x23000000 0 = some (some .ok, some 4) := by decide
/-- H4, H5. -/
theorem test_getAddress : ports HL 0x24000000 0 = some (some .ok, some 0x0048) ∧
    ports HH 0x24000000 0 = some (some .ok, some 0x0049) := by decide

/-! ## Sequenced operations (section 2.8) -/

/-- Q1, Q4. -/
theorem test_readSe :
    traffic (answering HL [true] [(true, 0x7FF0)]) 0x30000000 0 = some (some .ok, some 2047,
      [.write 0 0x48 1 0xC183 true, .wait 2, .read 0 0x48 0 true 0x7FF0]) ∧
    traffic (answering HL [false] []) 0x30000000 0 =
      some (some .busWriteFailed, none, [.write 0 0x48 1 0xC183 false]) := by decide
/-- Q3, Q5. -/
theorem test_readSe_errors : traffic HL 0x30040000 0 = some (some .invalidChannel, none, []) ∧
    traffic (answering HL [true] [(false, 0x1234)]) 0x30000000 0 = some (some .busReadFailed, none,
      [.write 0 0x48 1 0xC183 true, .wait 2, .read 0 0x48 0 false 0x1234]) := by decide
/-- Q9, Q12. -/
theorem test_readDiff :
    traffic (answering (set HL 5 6) [true] [(true, 0x8000)]) 0x31030000 0 = some (some .ok, some 0xF800,
      [.write 0 0x48 1 0xBBC3 true, .wait 2, .read 0 0x48 0 true 0x8000]) ∧
    traffic (answering (set HH 2 7) [true] [(true, 0xFC18)]) 0x31000000 0 = some (some .ok, some 0xFC18,
      [.write 0 0x49 1 0x85E3 true, .wait 3, .read 0 0x49 0 true 0xFC18]) := by decide
/-- Q10, Q11. -/
theorem test_readDiff_errors : traffic HL 0x31040000 0 = some (some .invalidOperand, none, []) ∧
    traffic (basicPairs HL) 0x31010000 0 = some (some .invalidOperand, none, []) := by decide
/-- S14, S15. -/
theorem test_startComparator :
    traffic (answering HH [true, true] []) 0x32000000 0x03E8 = some (some .ok, none,
      [.write 0 0x49 3 0x03E8 true, .write 0 0x49 1 0x4084 true]) ∧
    traffic (answering HL [true, true] []) 0x32000000 0x03E8 = some (some .ok, none,
      [.write 0 0x48 3 0x3E80 true, .write 0 0x48 1 0x4084 true]) := by decide
/-- Q18, Q15, Q19. -/
theorem test_startComparator_errors : traffic HL 0x32040000 0x0800 = some (some .invalidChannel, none, []) ∧
    traffic HL 0x32000000 0x0800 = some (some .thresholdOutOfRange, none, []) ∧
    traffic (answering HL [false] []) 0x32000000 0x03E8 =
      some (some .busWriteFailed, none, [.write 0 0x48 3 0x3E80 false]) := by decide
/-- Q20. -/
theorem test_startComparator_secondWrite :
    traffic (answering HL [true, false] []) 0x32000000 0x03E8 = some (some .busWriteFailed, none,
      [.write 0 0x48 3 0x3E80 true, .write 0 0x48 1 0x4084 false]) := by decide
/-- Q22, Q23. -/
theorem test_getLastConversion :
    traffic (answering HL [] [(true, 0x3E90)]) 0x33000000 0 = some (some .ok, some 1001,
      [.wait 2, .read 0 0x48 0 true 0x3E90]) ∧
    traffic (answering (set HH 0 0) [] [(true, 0xFFFF)]) 0x33000000 0 = some (some .ok, some 0xFFFF,
      [.wait 126, .read 0 0x49 0 true 0xFFFF]) := by decide
/-- Q24. -/
theorem test_getLastConversion_fails :
    traffic (answering HL [] [(false, 0)]) 0x33000000 0 = some (some .busReadFailed, none,
      [.wait 2, .read 0 0x48 0 false 0]) := by decide

/-! ## Around the operations -/

/-- A handle in the middle of a read. -/
def reading : State := { answering HL [] [(true, 0x3E90)] with h := { HL.h with phase := .reading } }

/-- 70_reset_and_hazards R124: an operation presented mid-read is held, and the read ends first. -/
theorem test_held :
    (match step { reading with requests := [.operation 0 0x21000000 0] } with
      | .next t => some (t.h.phase, t.h.result, t.requests)
      | .fault _ => none
      | .refused _ => none) = some (.idle, some 1001, [.operation 0 0x21000000 0]) := by decide

/-- 00_scope R12: the Caller's read of an absent `Y` is the fault. -/
theorem test_absentResult :
    (match step { HL with requests := [.readResult 0] } with
      | .next _ => false
      | .fault .resultAbsent => true
      | .refused _ => false) = true := by decide

/-- 70_reset_and_hazards R116: a handle at an address outside `ADDR_TABLE` is refused; one inside it starts at rate 4. -/
theorem test_create :
    (match step { HL with requests := [.create .highRes 0x50 0] } with
      | .next t => some t.peers
      | .fault _ => none
      | .refused _ => none) = some [] ∧
    (match step { HL with requests := [.create .highRes 0x4B 1] } with
      | .next t => some t.peers
      | .fault _ => none
      | .refused _ => none) = some [⟨.highRes, 0x4B, 1, 0, 4, .idle, none, none, []⟩] := by decide

/-- 70_reset_and_hazards R116, 60_exceptions R113: a further handle starts with an empty bus log, and the log of the handle
before it stays. -/
theorem test_create_log :
    (match step { HL with h := HL.h.logged [.wait 9], requests := [.create .lowRes 0x49 0] } with
      | .next t => some (t.h.log, t.peers.map Handle.log)
      | .fault _ => none
      | .refused _ => none) = some ([.wait 9], [[]]) := by decide

/-- 30_encoding R46: a table that repeats a rate, or is out of order, is no legal one; nor is a start bit in a comparator word
(R49). -/
theorem test_illegalTables : ¬ ratesWf { defaultTables with spsLow := [128, 1600, 3300, 3300, 3300, 3300, 3300] } .lowRes ∧
    ¬ ratesWf { defaultTables with spsHigh := [8, 32, 16, 64, 128, 250, 475, 860] } .highRes ∧
    ¬ tablesWf { defaultTables with compFixed := { defaultCompFixed with os := 1 } } :=
  ⟨by decide, by decide, by decide⟩

/-! ## Witnesses: inputs that meet the hypotheses of each statement -/

theorem witness_DecodeInvertsEncode : (Instr.packRate 255 255).wellFormed = true ∧
    (Instr.buildReadConfig 0 (.diff 127) 255).wellFormed = true ∧ (Instr.startComparator (.se 127) 0).wellFormed = true := by
  decide

theorem witness_AcceptedWordIsItsEncoding : decode 0x05010104 0 = .ok (.buildReadConfig 1 (.se 1) 4) ∧
    decode 0x08040000 0x03E8 = .ok (.encodeThreshold 4 0x03E8) ∧ (Instr.encodeThreshold 4 0x03E8).readsD = true :=
  ⟨rfl, rfl, rfl⟩

theorem witness_DecoderAcceptsExactlyTheTable : decode 0x04000600 0xFFFF = .ok (.packRate 0 6) ∧
    (Instr.packRate 0 6).readsD = false ∧ opcodeTable.any (fun row => 0x04000600#32 &&& row.mask == row.matchWord) = true :=
  ⟨rfl, rfl, by decide⟩

/-- Two handles on two buses, an operation presented to the second. -/
def presented (cmd : CmdWord) : State :=
  { HL with peers := [newHandle defaultParams .highRes 0x49 1], requests := [.operation 1 cmd 0] }

theorem witness_StepRunsTheDecodedOperation :
    (∀ h ∈ (presented 0x23000000).h :: (presented 0x23000000).peers, h.transport = 1 → h.phase = .idle) ∧
    (presented 0x23000000).handle 1 = some (newHandle defaultParams .highRes 0x49 1) ∧
    decode 0x23000000 0 = .ok .getRate ∧ decode 0x09000000 0 = .error .unassignedOpcode ∧
    HL.handle 0 = some HL.h ∧ HL.ready :=
  ⟨by decide, by decide, rfl, rfl, rfl, by decide⟩

theorem witness_IllegalWordRaisesIllegalOperation : HL.ready ∧
    (∀ row ∈ opcodeTable, 0x09000000#32 &&& row.mask ≠ row.matchWord) ∧
    (∀ row ∈ opcodeTable, 0x01000001#32 &&& row.mask ≠ row.matchWord) := by decide

/-- Both handles have legal parameters: every statement that asks for legal or default tables. -/
theorem witness_tables : paramsWf HL.params ∧ paramsWf (basicPairs HH).params ∧ HL.params.tables = defaultTables :=
  ⟨by decide, by decide, rfl⟩

/-- Both handles may start an operation: every row of the opcode map. -/
theorem witness_rows : HL.ready ∧ HH.ready := by decide

theorem witness_PackGainGivesTheCode : tablesWf HL.params.tables ∧ HL.params.tables.gain[5]? = some 0b101 ∧
    HL.params.tables.gain[6]? = none ∧ HL.params.tables = defaultTables := by decide

theorem witness_PackInputSeGivesTheCode : tablesWf HL.params.tables ∧ HL.params.tables.muxSe[3]? = some 0b111 ∧
    HL.params.tables.muxSe[4]? = none ∧ HL.params.tables = defaultTables ∧
    (∃ t u, exec (.packInputSe 3) HL = .next t ∧ exec (.packInputSe 3) HL = .next u ∧ t.h.result = u.h.result) :=
  ⟨by decide, by decide, by decide, rfl, _, _, rfl, rfl, rfl⟩

theorem witness_PackInputDiffGivesTheCode : tablesWf HL.params.tables ∧ selCode HL.params (.diff 3) = some 0b011 ∧
    selCode HL.params (.diff 4) = none ∧ (basicPairs HL).params.extDiffPairs = false ∧
    selCode (basicPairs HL).params (.diff 0) = some 0b000 ∧ selCode (basicPairs HL).params (.diff 1) = none ∧
    HL.params.extDiffPairs = true := by decide

theorem witness_PackRateGivesTheCode : tablesWf HL.params.tables ∧ HL.params.tables.rateLow[6]? = some 0b110 ∧
    HL.params.tables.rateLow[7]? = none ∧ HL.params.tables.rateHigh[7]? = some 0b111 ∧
    HL.params.tables.rateHigh[8]? = none := by decide

theorem witness_BuildReadConfigGivesTheWord : tablesWf HL.params.tables ∧ HL.params.tables.gain[5]? = some 0b101 ∧
    selCode HL.params (.se 3) = some 0b111 ∧ selCode HL.params (.se 4) = none ∧ selError (.se 4) = .invalidChannel := by decide

theorem witness_BuildComparatorConfigGivesTheWord : tablesWf HH.params.tables ∧ HH.params.tables.gain[5]? = some 0b101 ∧
    selCode HH.params (.diff 3) = some 0b011 ∧ selCode HH.params (.diff 4) = none ∧
    selError (.diff 4) = .invalidOperand := by decide

theorem witness_ConfigKindsAreDistinct : ∃ t u, exec (.buildReadConfig 0 (.se 0) 7) HL = .next t ∧
    t.h.result = some 0xC1E3 ∧ exec (.buildComparatorConfig 5 (.diff 3) 0) HL = .next u ∧ u.h.result = some 0x3A04 ∧
    tablesWf HL.params.tables ∧ HL.params.tables = defaultTables :=
  ⟨_, _, rfl, by decide, rfl, by decide, by decide, rfl⟩

theorem witness_DecodeResultFollowsTheFormula :
    ports HL 0x070F0000 0x8000 = some (some .ok, some 1) ∧ ports HL 0x07100000 0x8000 = some (some .invalidOperand, none) ∧
    ports HL 0x07010000 0xFFFF = some (some .ok, some 0xFFFF) ∧ ports HL 0x07050000 0xFFFF = some (some .ok, some 2047) := by
  decide

theorem witness_DecodeResultIsSignedQuotient : ∃ t u, exec (.decodeResult 4 0x8000) HL = .next t ∧
    t.h.result = some 0xF800 ∧ exec (.decodeResult 0 0x8000) HL = .next u ∧ u.h.result = some 0x8000 :=
  ⟨_, _, rfl, by decide, rfl, by decide⟩

/-- T4, T7, T5, T8, T14: the ends of the range for shift 4, one beyond each, and a shift above 15. -/
theorem witness_EncodeThresholdScalesExactly : ports HL 0x08040000 0x07FF = some (some .ok, some 0x7FF0) ∧
    ports HL 0x08040000 0x0800 = some (some .thresholdOutOfRange, none) ∧
    ports HL 0x08040000 0xF800 = some (some .ok, some 0x8000) ∧
    ports HL 0x08040000 0xF7FF = some (some .thresholdOutOfRange, none) := by decide

theorem witness_ThresholdRoundTrip :
    (∃ u, exec (.encodeThreshold 4 0xF800) HL = .next u ∧ u.h.result = some 0x8000) ∧
    (∃ u, exec (.encodeThreshold 0 0x8000) HL = .next u ∧ u.h.result = some 0x8000) ∧
    (∃ u, exec (.decodeResult 4 0x3E9F) HL = .next u ∧ u.h.result = some 1001) ∧
    -4096 ≤ (0xF000 : Word).toInt ∧ (0xF000 : Word).toInt < 0 :=
  ⟨⟨_, rfl, by decide⟩, ⟨_, rfl, by decide⟩, ⟨_, rfl, by decide⟩, by decide, by decide⟩

/-- A legal state. -/
theorem witness_inv : HL.Inv ∧ HH.Inv ∧ (set HL 5 6).Inv ∧ (set HH 0 7).Inv :=
  ⟨by decide, by decide, by decide, by decide⟩

theorem witness_LookupsReadTheTables : (spsList HL.params.tables HL.h.variant)[HL.h.rate]? = some 1600 ∧
    (rateCodes HH.params.tables HH.h.variant)[HH.h.rate]? = some 0b100 ∧ HL.Inv := by decide

theorem witness_ConversionDelayIsCeilingPlusOne : (set HH 0 0).Inv ∧
    (spsList (set HH 0 0).params.tables (set HH 0 0).h.variant)[(set HH 0 0).h.rate]? = some 8 ∧
    (spsList (set HL 0 6).params.tables (set HL 0 6).h.variant)[(set HL 0 6).h.rate]? = some 3300 := by decide

theorem witness_SetGainStoresTheIndex : (∃ t, exec (.setGain 5) HL = .next t ∧ t.h.gain = 5) ∧
    ∃ t, exec (.setGain 6) HL = .next t ∧ t.h.gain = 0 := ⟨⟨_, rfl, by decide⟩, _, rfl, by decide⟩

theorem witness_SetRateStoresTheIndex : 6 < (if HL.h.variant = .lowRes then 7 else 8) ∧
    7 ≥ (if HL.h.variant = .lowRes then 7 else 8) ∧ 7 < (if HH.h.variant = .lowRes then 7 else 8) ∧
    8 ≥ (if HH.h.variant = .lowRes then 7 else 8) := by decide

theorem witness_GettersReturnTheField : HL.Inv ∧ HH.Inv := ⟨by decide, by decide⟩

theorem witness_SetGainThenGetGain : HL.ready ∧ (0 : Byte).toNat ≤ 5 ∧ (5 : Byte).toNat ≤ 5 := by decide

/-- Handle `HL` with a write and a read that go through. -/
def reads : State := answering HL [true, true] [(true, 0x7FF0)]

theorem witness_ReadSeDeliversTheSample : reads.params.tables.muxSe[3]? = some 0b111 ∧ handleCodes reads 0b000 0b100 ∧
    reads.writeAnswer.ok = true ∧ readOk reads.readAnswer = true ∧ reads.ready :=
  ⟨by decide, ⟨by decide, by decide⟩, by decide, by decide, by decide⟩

theorem witness_ReadDiffDeliversTheSample : selCode reads.params (.diff 3) = some 0b011 ∧ handleCodes reads 0b000 0b100 ∧
    reads.writeAnswer.ok = true ∧ readOk reads.readAnswer = true :=
  ⟨by decide, ⟨by decide, by decide⟩, by decide, by decide⟩

theorem witness_StartComparatorArms : tablesWf reads.params.tables ∧ selCode reads.params (.diff 0) = some 0b000 ∧
    handleCodes reads 0b000 0b100 ∧ (0x8000 : Word).toInt = (0xF800 : Word).toInt * 16 ∧
    (0x7FF0 : Word).toInt = (0x07FF : Word).toInt * 16 ∧ reads.writeAnswer.ok = true ∧
    (reads.busWrite .hiThresh 0x8000).writeAnswer.ok = true :=
  ⟨by decide, by decide, ⟨by decide, by decide⟩, by decide, by decide, by decide, by decide⟩

theorem witness_GetLastConversionReadsWithoutWriting : readOk reads.readAnswer = true ∧ reads.ready := by decide

theorem witness_SequencedWordsAreBuiltWords : tablesWf reads.params.tables ∧ selCode reads.params (.se 0) = some 0b100 ∧
    selCode reads.params (.diff 3) = some 0b011 ∧ handleCodes reads 0b000 0b100 ∧
    (0x8000 : Word).toInt = (0xF800 : Word).toInt * 2 ^ shiftOf reads.h.variant ∧ reads.writeAnswer.ok = true :=
  ⟨by decide, by decide, by decide, ⟨by decide, by decide⟩, by decide, by decide⟩

theorem witness_InvalidChannelChangesNothing : (4 : Nat) > 3 ∧ (5 : Nat) ≤ 5 ∧
    ports HL 0x05050400 0 = some (some .invalidChannel, none) := by decide

theorem witness_InvalidOperandChangesNothing : tablesWf HL.params.tables ∧ selCode HL.params (.se 3) = some 0b111 ∧
    (basicPairs HL).params.extDiffPairs = false ∧ (if HL.h.variant = .lowRes then 6 else 7) = 6 ∧
    (if HH.h.variant = .lowRes then 6 else 7) = 7 := by decide

theorem witness_ThresholdOutOfRangeChangesNothing : tablesWf HL.params.tables ∧ selCode HL.params (.se 0) = some 0b100 ∧
    HL.h.variant = .lowRes ∧ (0x0800 : Word).toInt > 2047 ∧ (0xF7FF : Word).toInt < -2048 := by decide

/-- A first write that fails, and a second. -/
theorem witness_FailedWriteEndsTheOperation : tablesWf HL.params.tables ∧
    handleCodes (answering HL [false] []) 0b000 0b100 ∧ (answering HL [false] []).writeAnswer.ok = false ∧
    HL.params.tables.muxSe[0]? = some 0b100 ∧ selCode HL.params (.diff 0) = some 0b000 ∧
    (0x3E80 : Word).toInt = (0x03E8 : Word).toInt * 2 ^ shiftOf HL.h.variant ∧
    (answering HL [true, false] []).writeAnswer.ok = true ∧
    ((answering HL [true, false] []).busWrite .hiThresh 0x3E80).writeAnswer.ok = false :=
  ⟨by decide, ⟨by decide, by decide⟩, by decide, by decide, by decide, by decide, by decide, by decide⟩

/-- A read that fails, and one that returns a single byte. -/
theorem witness_FailedReadDiscardsTheValue : (answering HL [true] [(false, 0)]).readAnswer.acked = false ∧
    State.readAnswer { HL with env := ⟨[], [⟨true, 1, 0x00FF⟩], [], 0, 0, 0⟩ } = ⟨true, 1, 0x00FF⟩ ∧
    handleCodes (answering HL [true] [(false, 0)]) 0b000 0b100 ∧ (answering HL [true] [(false, 0)]).writeAnswer.ok = true :=
  ⟨by decide, by decide, ⟨by decide, by decide⟩, by decide⟩

/-- Every status an operation can end with is met. -/
theorem witness_StatusCodesAndWhoRaisesThem : ports HL 0x30040000 0 = some (some .invalidChannel, none) ∧
    ports (answering HL [false] []) 0x31000000 0 = some (some .busWriteFailed, none) ∧
    ports (answering HL [] [(false, 0)]) 0x33000000 0 = some (some .busReadFailed, none) ∧
    ports HL 0x32000000 0x0800 = some (some .thresholdOutOfRange, none) ∧
    ports HL 0x32840000 0 = some (some .invalidOperand, none) := by decide

theorem witness_ErrorLeavesTheHandle : ∃ t, exec (.setGain 6) HL = .next t ∧ t.h.status = some .invalidOperand :=
  ⟨_, rfl, by decide⟩

theorem witness_CodecIsPure : (Instr.packInputDiff 1).isCodec = true ∧ HL.params.tables = HH.params.tables ∧
    HL.params.extDiffPairs = HH.params.extDiffPairs := by decide

theorem witness_OnlySettersWriteHandleFields : (∃ t, exec (.setGain 5) HL = .next t ∧ t.h.gain ≠ HL.h.gain) ∧
    ∃ t, exec (.setRate 6) HL = .next t ∧ t.h.rate ≠ HL.h.rate :=
  ⟨⟨_, rfl, by decide⟩, ⟨_, rfl, by decide⟩⟩

/-- A read with both transactions answered: its traffic, that it is sequenced, and that it reads. It meets the hypotheses
of TrafficOfEachOperation, NoRetries, DeviceRegisterFrame, OperationFrames and ReadComesAfterTheConversionTime. -/
theorem witness_traffic : ∃ t, exec (.readSe 0) reads = .next t ∧
    t.log = reads.log ++ [.write 0 0x48 1 0xC183 true, .wait 2, .read 0 0x48 0 true 0x7FF0] ∧
    t.h.status = some .ok ∧ (Instr.readSe 0).isSequenced = true ∧ reads.regKey .loThresh ≠ reads.regKey .config ∧
    tablesWf reads.params.tables :=
  ⟨_, rfl, by decide, by decide, rfl, by decide, by decide⟩

/-- A failed write: its traffic and its status. -/
theorem witness_NoRetries : ∃ t, exec (.readSe 0) (answering HL [false] []) = .next t ∧
    t.log = HL.log ++ [.write 0 0x48 1 0xC183 false] ∧ t.h.status = some .busWriteFailed :=
  ⟨_, rfl, by decide, by decide⟩

theorem witness_OperationFrames : Instr.getGain.isSequenced = false ∧ Instr.getGain.setsHandle = false ∧
    Instr.getLastConversion.isSequenced = true ∧ (∃ t, exec .getGain HL = .next t) ∧
    (Instr.setGain 5).isSequenced = false ∧ (∃ t, exec (.setGain 5) HL = .next t) ∧
    (Instr.setRate 6).isSequenced = false ∧ ∃ t, exec (.setRate 6) HL = .next t :=
  ⟨rfl, rfl, rfl, ⟨_, rfl⟩, rfl, ⟨_, rfl⟩, rfl, _, rfl⟩

theorem witness_SettingsTakeEffectAtTheNextWrite : tablesWf reads.params.tables ∧ 6 < rateCount reads.h.variant ∧
    reads.params.tables.muxSe[3]? = some 0b111 ∧ reads.params.tables.gain[5]? = some 0b101 ∧
    (rateCodes reads.params.tables reads.h.variant)[6]? = some 0b110 ∧ reads.writeAnswer.ok = true := by decide

/-- Answers for an armed comparator, a read of the last conversion or none, and a plain read. -/
def armed : State := answering HL [true, true, true] [(true, 0x3E90), (true, 0x0010)]

theorem witness_ReadReplacesTheComparatorConfiguration : ∃ t u v, exec (.startComparator (.se 0) 1000) armed = .next t ∧
    t.h.status = some .ok ∧ exec .getLastConversion t = .next u ∧
    exec (readOf (.se 0)) u = .next v ∧ v.h.status = some .ok ∧
    (∃ w, exec (readOf (.diff 3)) t = .next w ∧ w.h.status = some .ok) ∧ tablesWf armed.params.tables :=
  ⟨_, _, _, rfl, by decide, rfl, rfl, by decide, ⟨_, rfl, by decide⟩, by decide⟩

theorem witness_LastConversionWaitsAtTheNewRate : 6 < rateCount HL.h.variant ∧
    ∃ t u, exec (.setRate 6) HL = .next t ∧ exec .getLastConversion t = .next u :=
  ⟨by decide, _, _, rfl, rfl⟩

theorem witness_WireByteOrderIsNeverRead : ∃ t, exec (.readSe 0) reads = .next t ∧
    (HL.withOrder .lsbFirst).params.wireByteOrder = .lsbFirst := ⟨_, rfl, rfl⟩

theorem witness_ReadingAnAbsentResultFaults : HL.ready ∧ HL.h.result = none ∧
    (∃ t, exec (.setGain 6) HL = .next t ∧ t.h.status ≠ some .ok) ∧ (Instr.setGain 0).valueless = true ∧
    ∃ t, exec .getGain HL = .next t ∧ t.h.result ≠ none ∧ t.ready :=
  ⟨by decide, rfl, ⟨_, rfl, by decide⟩, rfl, _, rfl, by decide, by decide⟩

theorem witness_FieldDecodersInvertTheTables : tablesWf defaultTables ∧ defaultTables.gain[5]? = some 0b101 ∧
    0b110 ∉ defaultTables.gain ∧ defaultTables.muxDiff[3]? = some 0b011 ∧ defaultTables.muxSe[0]? = some 0b100 ∧
    0b111 ∉ rateCodes defaultTables .lowRes := by decide

theorem witness_PhasesRefineTheMeanings : packInputSe HL.params.tables 3 = .ok 0x7000 ∧
    packInputDiff HL.params 3 = .ok 0x3000 ∧ resolveInput HL.params (.se 0) = .ok 0x4000 ∧
    encodeThreshold (shiftOf HL.h.variant) 1000 = .ok 0x3E80 := ⟨rfl, rfl, rfl, rfl⟩

theorem witness_OperationIsHeldUntilIdle : reading.h.phase ≠ .idle ∧
    State.requests { reading with requests := [.operation 0 0x21000000 0] } = [.operation 0 0x21000000 0] := by decide

/-- Two handles of one bus, the second in the middle of a read, an operation presented to the first. -/
def shared : State :=
  { reading with
    h := HL.h
    peers := [{ newHandle defaultParams .highRes 0x49 0 with phase := .reading }]
    requests := [.operation 0 0x21000000 0] }

/-- The same with the second handle on a bus of its own. -/
def separate : State := { shared with peers := [{ newHandle defaultParams .highRes 0x49 1 with phase := .reading }] }

theorem witness_SharedBusHoldsTheOperation : shared.handle 0 = some HL.h ∧
    shared.handle 1 = some { newHandle defaultParams .highRes 0x49 0 with phase := .reading } ∧
    (∀ h ∈ separate.h :: separate.peers, h.transport = separate.h.transport → h.phase = .idle) ∧
    separate.requests = [.operation 0 0x21000000 0] := by decide

theorem witness_OtherHandlesAreUntouched : (presented 0x23000000).handle 1 ≠ none ∧
    (presented 0x23000000).handle 0 = some HL.h ∧ ∃ t, onHandle 1 (exec (.setGain 5)) (presented 0) = .next t :=
  ⟨by decide, by decide, _, rfl⟩

theorem witness_CreationSetsTheHandle : tablesWf HL.params.tables ∧ 0x50#7 ∉ HL.params.tables.addrs ∧
    0x4B#7 ∈ HL.params.tables.addrs := by decide

theorem witness_StepKeepsLegalStates : HL.Inv ∧ HL.allIdle ∧ ∃ t, step (HL.present 0x20 5 0 0 0) = .next t :=
  ⟨by decide, by decide, _, rfl⟩

end Sys2Proof.Tests
end

section
/-! What an operation leaves when it has ended (10_state R15, 42_protocol R83), and the statements of 00_scope that follow
from it: every operation ends, `Y` is absent after an error, and a step leaves no handle in the middle of an operation. -/

namespace Sys2Proof.Machine

/-! ## A completed operation -/

/-- State `t` is where an operation started in `s` has ended: handle 0 is Idle with a status, `Y` holds a value exactly when
the operation succeeded and has one (10_state R15), and the parameters, the requests and the other handles are as before. -/
structure Completed (valueless : Bool) (s t : State) : Prop where
  idle : t.h.phase = .idle
  status : t.h.status ≠ none
  result : t.h.result ≠ none ↔ t.h.status = some .ok ∧ valueless = false
  params : t.params = s.params
  requests : t.requests = s.requests
  peers : t.peers = s.peers

/-- Writing the ports by `ended` completes an operation, whatever it did to the handle, the device registers, the
Environment and the clock. -/
theorem completed_ended {valueless : Bool} (s : State) (h : Handle) (m : Memory) (env : Environment) (time : Nat)
    (st : Status) (y : Option Word) (hy : y ≠ none ↔ st = .ok ∧ valueless = false) :
    Completed valueless s { s with h := Machine.ended h st y, devRegs := m, env := env, elapsed := time } where
  idle := rfl
  status := Option.some_ne_none st
  result := by simpa [Machine.ended] using hy
  params := rfl
  requests := rfl
  peers := rfl

/-- The two ends of a bus read: a value exactly where it went through. -/
theorem read_value_iff_ok {st : Status} {y : Option Word} {ok : Bool}
    (h : (st = .ok ∧ ok = true ∧ y ≠ none) ∨ (st = .busReadFailed ∧ ok = false ∧ y = none)) :
    y ≠ none ↔ st = .ok ∧ false = false := by
  rcases h with ⟨rfl, -, hy⟩ | ⟨rfl, -, rfl⟩
  · simp [hy]
  · simp

theorem convertAndRead_completed (s : State) : Completed false s (convertAndRead s) := by
  obtain ⟨st, y, he, hy⟩ := convertAndRead_form s
  rw [he]
  exact completed_ended s _ _ _ _ st y (read_value_iff_ok hy)

theorem readPath_completed (mux : Word) (s : State) : Completed false s (readPath mux s) := by
  obtain ⟨cfg, ⟨st, y, -, he, hy⟩ | ⟨-, he⟩⟩ := readPath_form mux s
  · rw [he]
    exact completed_ended s _ _ _ _ st y (read_value_iff_ok hy)
  · rw [he]
    exact completed_ended s _ _ _ _ .busWriteFailed none (by simp)

theorem armPath_completed (mux hi : Word) (s : State) : Completed true s (armPath mux hi s) := by
  obtain ⟨cfg, ⟨ok, -, -, he⟩ | ⟨-, he⟩⟩ := armPath_form mux hi s
  · rw [he]
    exact completed_ended s _ _ _ _ _ none (by simp)
  · rw [he]
    exact completed_ended s _ _ _ _ .busWriteFailed none (by simp)

/-- Every operation that answers a next state has completed there. -/
theorem exec_completed (i : Instr) (s t : State) (h : exec i s = .next t) : Completed i.valueless s t := by
  rcases exec_cases i s t h with ⟨st, y, rfl, -, herr, hok⟩ | ⟨g, rfl, -, rfl⟩ | ⟨r, rfl, -, rfl⟩ | ⟨ch, mux, rfl, -, rfl⟩ |
    ⟨p, mux, rfl, -, rfl⟩ | ⟨sel, thr, mux, hi, rfl, -, -, rfl⟩ | ⟨rfl, rfl⟩
  · refine completed_ended s s.h _ _ _ st y ⟨fun hy => ?_, fun hst => (hok hst.1).1⟩
    have hst : st = .ok := by_contra fun hne => hy (herr hne)
    exact ⟨hst, (hok hst).2.1⟩
  · exact completed_ended s _ _ _ _ .ok none (by simp [Instr.valueless])
  · exact completed_ended s _ _ _ _ .ok none (by simp [Instr.valueless])
  · exact readPath_completed mux s
  · exact readPath_completed mux s
  · exact armPath_completed mux hi s
  · exact convertAndRead_completed s

/-- No operation stops the machine: each answers a next state. -/
theorem exec_total (i : Instr) (s : State) : ∃ t, exec i s = .next t := by
  cases i <;> exact ⟨_, rfl⟩

/-! ## What a step serves besides an operation -/

theorem readResult_of_none (s : State) (h : s.h.result = none) : readResult s = .fault .resultAbsent := by
  simp [readResult, h]

theorem readResult_of_some (s : State) (h : s.h.result ≠ none) : readResult s = .next s := by
  obtain ⟨y, hy⟩ := Option.ne_none_iff_exists'.1 h
  simp [readResult, hy]

/-- With the bus of handle 0 free, the step serves the read of its `Y` that is asked first. -/
theorem step_readResult (s : State) (hs : s.ready) :
    step { s with requests := .readResult 0 :: s.requests } = readResult s :=
  (serve_free 0 s.requests readResult { s with requests := .readResult 0 :: s.requests } s.h rfl hs).trans
    (onHandle_zero readResult s)

/-- A read of `Y` that answers a next state left the machine as it was. -/
theorem readResult_next (s t : State) (h : readResult s = .next t) : t = s := by
  by_cases hy : s.h.result = none
  · rw [readResult_of_none s hy] at h
    cases h
  · rw [readResult_of_some s hy] at h
    cases h
    rfl

/-- A presented word leaves its handle Idle, decodable or not, and the other handles as they were. -/
theorem runWord_next (cmd : CmdWord) (d : Word) (s t : State) (h : runWord cmd d s = .next t) :
    t.h.phase = .idle ∧ t.peers = s.peers := by
  unfold runWord at h
  split at h
  · have hc := exec_completed _ s t h
    exact ⟨hc.idle, hc.peers⟩
  · cases h
    exact ⟨rfl, rfl⟩

/-- What the Caller asks of a handle leaves it Idle where it was Idle, and the other handles as they were. -/
theorem served_next (run : State → Host.Outcome State Fault Refusal) (s t : State)
    (hrun : (∃ cmd d, run = runWord cmd d) ∨ run = readResult) (h : run s = .next t) (hs : s.h.phase = .idle) :
    t.h.phase = .idle ∧ t.peers = s.peers := by
  rcases hrun with ⟨cmd, d, rfl⟩ | rfl
  · exact runWord_next cmd d s t h
  · rw [readResult_next s t h]
    exact ⟨hs, rfl⟩

/-- A creation changes nothing or adds one new handle. -/
theorem createPeer_cases (v : Variant) (addr : BitVec 7) (bus : Nat) (s : State) : createPeer v addr bus s = s ∨
    createPeer v addr bus s = { s with peers := s.peers ++ [newHandle s.params v addr bus] } := by
  unfold createPeer createHandle
  by_cases ha : addr ∈ s.params.tables.addrs
  · simp [ha]
  · simp [ha]

/-! ## Idle handles -/

/-- Which handles there are does not depend on what is presented. -/
@[simp] theorem State.handle_requests (s : State) (rest : List Request) (k : Nat) :
    State.handle { s with requests := rest } k = s.handle k := by
  cases k <;> rfl

theorem allIdle_iff (s : State) : s.allIdle ↔ ∀ k h, s.handle k = some h → h.phase = .idle := by
  simp only [State.allIdle, State.mem_handles]
  exact ⟨fun hs k h hk => hs h ⟨k, hk⟩, fun hs h ⟨k, hk⟩ => hs k h hk⟩

/-- Replacing one handle by an Idle one, where every handle is Idle, keeps them all Idle. -/
theorem allIdle_swap (s u : State) (k : Nat) (target : Handle) (hs : s.allIdle) (hk : s.handle k = some target)
    (hidle : u.h.phase = .idle) (hpeers : u.peers = (s.swap k).peers) : (u.swap k).allIdle := by
  rw [allIdle_iff] at hs ⊢
  intro j h hj
  rw [State.swap_swap_handle s u k target hk hpeers j] at hj
  by_cases hjk : j = k
  · rw [if_pos hjk] at hj
    cases hj
    exact hidle
  · rw [if_neg hjk] at hj
    exact hs j h hj

theorem createPeer_allIdle (v : Variant) (addr : BitVec 7) (bus : Nat) (s : State) (hs : s.allIdle) :
    (createPeer v addr bus s).allIdle := by
  rcases createPeer_cases v addr bus s with he | he
  · rwa [he]
  · rw [he]
    intro h hh
    rcases List.mem_append.1 (show h ∈ (s.h :: s.peers) ++ [newHandle s.params v addr bus] from hh) with hold | hnew
    · exact hs h hold
    · rw [List.mem_singleton.1 hnew]
      rfl

/-! ## The statements of 00_scope -/

/-- Settles O39: every operation answers a next state, and is completed there. -/
theorem everyOperationEndsInIdle : Obligations.EveryOperationEndsInIdle := by
  intro i s
  obtain ⟨t, ht⟩ := exec_total i s
  have hc := exec_completed i s t ht
  refine ⟨t, ht, hc.idle, hc.status, fun hy => (hc.result.1 hy).1, fun hok => ?_⟩
  have hy := hc.result
  simp only [hok, true_and] at hy
  rw [← not_iff_not, ← ne_eq, hy, Bool.not_eq_true]

/-- Settles O49: a completed operation leaves a value only when it succeeded and has one, and the read of `Y` is served as
`readResult` says. -/
theorem readingAnAbsentResultFaults : Obligations.ReadingAnAbsentResultFaults := by
  refine ⟨fun i s t ht hno => ?_, fun s hs => ?_⟩
  · by_contra hy
    obtain ⟨hok, hvalue⟩ := (exec_completed i s t ht).result.1 hy
    rcases hno with hne | hless
    · exact hne hok
    · rw [hvalue] at hless
      cases hless
  · rw [step_readResult s hs]
    exact ⟨readResult_of_none s, readResult_of_some s⟩

/-- Settles O59, by the cases of a step: no handle is in progress to resume, the handle served ends Idle, and a created one
starts Idle. -/
theorem stepKeepsEveryHandleIdle : Obligations.StepKeepsEveryHandleIdle := by
  intro s t hs h
  rcases step_next s t h with rfl | ⟨j, other, hj, hbusy, -⟩ | ⟨rest, k, target, run, u, hk, hu, rfl, hrun⟩ |
    ⟨rest, v, addr, bus, rfl⟩
  · exact hs
  · exact absurd ((allIdle_iff s).1 hs j other hj) hbusy
  · have hk' : State.handle { s with requests := rest } k = some target := by rw [State.handle_requests, hk]
    have hfront : (State.swap { s with requests := rest } k).h.phase = .idle := by
      rw [State.swap_h _ k target hk']
      exact (allIdle_iff s).1 hs k target hk
    obtain ⟨hidle, hpeers⟩ := served_next run _ u hrun hu hfront
    exact allIdle_swap { s with requests := rest } u k target hs hk' hidle hpeers
  · exact createPeer_allIdle v addr bus { s with requests := rest } hs

end Sys2Proof.Machine
end

section
/-! The sequencer against the meanings, and what every step keeps (10_state R15, R17 to R21): a transition as a relation
between two states, the meanings of the sequenced operations as runs of transitions, and the legal-state invariant. -/

namespace Sys2Proof.Machine

/-! ## The transitions, one equation a phase -/

theorem advance_idle (s : State) (h : s.h.phase = .idle) : advance s = s := by
  simp only [advance, h]

theorem advance_readConfig (s : State) (mux : Word) (h : s.h.phase = .configuring (.readConfig mux)) : advance s =
    let written := s.busWrite .config (handleConfig s.params.tables.readFixed s.params.tables s.h mux)
    if s.writeAnswer.ok then written.setPhase .converting else written.raise .busWriteFailed := by
  simp only [advance, h]

theorem advance_armHigh (s : State) (mux hi : Word) (h : s.h.phase = .configuring (.armHigh mux hi)) : advance s =
    let written := s.busWrite .hiThresh hi
    if s.writeAnswer.ok then written.setPhase (.configuring (.armConfig mux)) else written.raise .busWriteFailed := by
  simp only [advance, h]

theorem advance_armConfig (s : State) (mux : Word) (h : s.h.phase = .configuring (.armConfig mux)) : advance s =
    let written := s.busWrite .config (handleConfig s.params.tables.compFixed s.params.tables s.h mux)
    if s.writeAnswer.ok then written.ret none else written.raise .busWriteFailed := by
  simp only [advance, h]

theorem advance_converting (s : State) (h : s.h.phase = .converting) :
    advance s = (s.waitFor s.delay).setPhase .reading := by
  simp only [advance, h]

theorem advance_reading (s : State) (h : s.h.phase = .reading) : advance s =
    if readOk s.readAnswer then (s.busRead .conv).conclude (decodeResult (shiftOf s.h.variant) s.readAnswer.value)
    else (s.busRead .conv).raise .busReadFailed := by
  simp only [advance, h]

/-- An operation that has ended makes no further transition. -/
theorem advance_iterate_idle (s : State) (h : s.h.phase = .idle) (n : Nat) : advance^[n] s = s :=
  Function.iterate_fixed (advance_idle s h) n

/-! ## The meanings of the sequenced operations as transitions (42_protocol R89 to R93) -/

theorem convertAndRead_eq_advance (s : State) : convertAndRead s = advance^[2] (s.setPhase .converting) := by
  rw [Function.iterate_succ_apply, Function.iterate_one, advance_converting (s.setPhase .converting) rfl,
    advance_reading _ rfl]
  rfl

theorem readPath_eq_advance (mux : Word) (s : State) :
    readPath mux s = advance^[3] (s.setPhase (.configuring (.readConfig mux))) := by
  rw [Function.iterate_succ_apply, advance_readConfig _ mux rfl]
  unfold readPath
  dsimp only
  split
  · exact convertAndRead_eq_advance _
  · exact (advance_iterate_idle _ rfl 2).symm

theorem armPath_eq_advance (mux hi : Word) (s : State) :
    armPath mux hi s = advance^[2] (s.setPhase (.configuring (.armHigh mux hi))) := by
  rw [Function.iterate_succ_apply, Function.iterate_one,
    advance_armHigh (s.setPhase (.configuring (.armHigh mux hi))) mux hi rfl]
  unfold armPath
  dsimp only
  split
  · rw [advance_armConfig _ mux rfl]
    rfl
  · exact (advance_idle _ rfl).symm

/-! ## A transition as a relation -/

/-- What any transition does: its two phases are ends that 10_state R21 lists; of its handle it writes no more than the
phase and the ports, and it appends to the log; a value stands on `Y` only beside `OK`; the device registers keep their
canonical form; the parameters, the requests and the other handles are as before. -/
structure Transition (s t : State) : Prop where
  phase : allowedTransition s.h.phase t.h.phase
  handle : ∃ evs, t.h = { s.h.logged evs with phase := t.h.phase, status := t.h.status, result := t.h.result }
  ports : (s.h.result ≠ none → s.h.status = some .ok) → t.h.result ≠ none → t.h.status = some .ok
  devRegs : s.devRegs.wf → t.devRegs.wf
  params : t.params = s.params
  requests : t.requests = s.requests
  peers : t.peers = s.peers

/-- Waiting in Idle. -/
theorem Transition.stays (s : State) (h : s.h.phase = .idle) : Transition s s where
  phase := by rw [h]; trivial
  handle := ⟨[], by rw [Handle.logged_nil]⟩
  ports := id
  devRegs := id
  params := rfl
  requests := rfl
  peers := rfl

/-- Going on to a phase: the ports stay. -/
theorem Transition.goesOn (s : State) (evs : List Event) (p : Phase) (m : Memory) (env : Environment) (time : Nat)
    (hp : allowedTransition s.h.phase p) (hm : s.devRegs.wf → m.wf) :
    Transition s { s with h := { s.h.logged evs with phase := p }, devRegs := m, env := env, elapsed := time } where
  phase := hp
  handle := ⟨evs, rfl⟩
  ports := id
  devRegs := hm
  params := rfl
  requests := rfl
  peers := rfl

/-- Ending the operation: the ports are written. -/
theorem Transition.ends (s : State) (evs : List Event) (st : Status) (y : Option Word) (m : Memory) (env : Environment)
    (hp : allowedTransition s.h.phase .idle) (hy : y ≠ none → st = .ok) (hm : s.devRegs.wf → m.wf) :
    Transition s { s with h := Machine.ended (s.h.logged evs) st y, devRegs := m, env := env } where
  phase := hp
  handle := ⟨evs, rfl⟩
  ports := fun _ h => congrArg some (hy h)
  devRegs := hm
  params := rfl
  requests := rfl
  peers := rfl

/-- A write that goes through leads to the next phase. -/
theorem transition_write_setPhase (s : State) (r : Reg) (v : Word) (p : Phase) (hp : allowedTransition s.h.phase p) :
    Transition s ((s.busWrite r v).setPhase p) :=
  .goesOn s _ p _ _ s.elapsed hp (devAfterWrite_wf _ _ _ _)

/-- A write that fails ends the operation (60_exceptions R101). -/
theorem transition_write_raise (s : State) (r : Reg) (v : Word) (hp : allowedTransition s.h.phase .idle) :
    Transition s ((s.busWrite r v).raise .busWriteFailed) :=
  .ends s _ _ none _ _ hp (absurd rfl) (devAfterWrite_wf _ _ _ _)

/-- A write that goes through as the last one ends the operation without a value (42_protocol R92). -/
theorem transition_write_ret (s : State) (r : Reg) (v : Word) (hp : allowedTransition s.h.phase .idle) :
    Transition s ((s.busWrite r v).ret none) :=
  .ends s _ _ none _ _ hp (absurd rfl) (devAfterWrite_wf _ _ _ _)

/-- A read ends the operation with what it concludes (42_protocol R89). -/
theorem transition_read_ended (s : State) (st : Status) (y : Option Word) (hp : allowedTransition s.h.phase .idle)
    (hy : y ≠ none → st = .ok) : Transition s ((s.busRead .conv).ended st y) :=
  .ends s _ st y _ _ hp hy id

/-- Every `advance` is a transition, by the phase the handle is in. -/
theorem advance_transition (s : State) : Transition s (advance s) := by
  cases h : s.h.phase with
  | idle =>
    rw [advance_idle s h]
    exact .stays s h
  | configuring todo =>
    cases todo with
    | readConfig mux =>
      rw [advance_readConfig s mux h]
      dsimp only
      split
      · exact transition_write_setPhase s _ _ _ (by rw [h]; trivial)
      · exact transition_write_raise s _ _ (by rw [h]; trivial)
    | armHigh mux hi =>
      rw [advance_armHigh s mux hi h]
      dsimp only
      split
      · exact transition_write_setPhase s _ _ _ (by rw [h]; trivial)
      · exact transition_write_raise s _ _ (by rw [h]; trivial)
    | armConfig mux =>
      rw [advance_armConfig s mux h]
      dsimp only
      split
      · exact transition_write_ret s _ _ (by rw [h]; trivial)
      · exact transition_write_raise s _ _ (by rw [h]; trivial)
  | converting =>
    rw [advance_converting s h]
    exact .goesOn s _ .reading _ _ _ (by rw [h]; trivial) id
  | reading =>
    have hp : allowedTransition s.h.phase .idle := by rw [h]; trivial
    rw [advance_reading s h, decodeResult_ok _ _ (shiftOf_le _)]
    split
    · exact transition_read_ended s .ok _ hp fun _ => rfl
    · exact transition_read_ended s .busReadFailed none hp (absurd rfl)

/-! ## Keeping legal states -/

/-- A run on handle 0 keeps what the invariant asks of it: the parameters and the other handles stay as they are, the
handle stays legal and the device registers stay in canonical form. -/
structure KeepsLegal (s t : State) : Prop where
  params : t.params = s.params
  peers : t.peers = s.peers
  handle : handleOk s.params s.h → handleOk s.params t.h
  devRegs : s.devRegs.wf → t.devRegs.wf

theorem KeepsLegal.refl (s : State) : KeepsLegal s s := ⟨rfl, rfl, id, id⟩

theorem KeepsLegal.trans {s t u : State} (hst : KeepsLegal s t) (htu : KeepsLegal t u) : KeepsLegal s u where
  params := htu.params.trans hst.params
  peers := htu.peers.trans hst.peers
  handle := fun h => hst.params ▸ htu.handle (hst.params.symm ▸ hst.handle h)
  devRegs := htu.devRegs ∘ hst.devRegs

/-- The phase is no part of what makes a state legal. -/
theorem setPhase_keepsLegal (s : State) (p : Phase) : KeepsLegal s (s.setPhase p) := ⟨rfl, rfl, id, id⟩

/-- Writing the ports keeps a handle legal when a value is written only beside `OK` (10_state R15). -/
theorem ended_keepsLegal (s : State) (st : Status) (y : Option Word) (hy : y ≠ none → st = .ok) :
    KeepsLegal s (s.ended st y) where
  params := rfl
  peers := rfl
  handle := fun ⟨haddr, hgain, hrate, _⟩ => ⟨haddr, hgain, hrate, fun h => congrArg some (hy h)⟩
  devRegs := id

theorem setGain_keepsLegal (s : State) (g : Nat) (hg : g ≤ 5) : KeepsLegal s (s.setGain g) where
  params := rfl
  peers := rfl
  handle := fun ⟨haddr, _, hrate, hports⟩ => ⟨haddr, hg, hrate, hports⟩
  devRegs := id

theorem setRate_keepsLegal (s : State) (r : Nat) (hr : r < rateCount s.h.variant) : KeepsLegal s (s.setRate r) where
  params := rfl
  peers := rfl
  handle := fun ⟨haddr, hgain, _, hports⟩ => ⟨haddr, hgain, hr, hports⟩
  devRegs := id

theorem Transition.keepsLegal {s t : State} (h : Transition s t) : KeepsLegal s t where
  params := h.params
  peers := h.peers
  handle := fun ⟨haddr, hgain, hrate, hports⟩ => by
    obtain ⟨evs, he⟩ := h.handle
    rw [he]
    exact ⟨haddr, hgain, hrate, h.ports hports⟩
  devRegs := h.devRegs

/-- Any number of transitions, from whatever phase an operation starts in. -/
theorem advance_iterate_keepsLegal (s : State) (p : Phase) (n : Nat) : KeepsLegal s (advance^[n] (s.setPhase p)) := by
  induction n with
  | zero => exact setPhase_keepsLegal s p
  | succ n ih =>
    rw [Function.iterate_succ_apply']
    exact ih.trans (advance_transition _).keepsLegal

/-- Every operation keeps legal states: a setter stores an index it has checked, and a sequenced operation is a run of
transitions. -/
theorem exec_keepsLegal (i : Instr) (s t : State) (h : exec i s = .next t) : KeepsLegal s t := by
  rcases exec_cases i s t h with ⟨st, y, rfl, -, herr, -⟩ | ⟨g, -, hg, rfl⟩ | ⟨r, -, hr, rfl⟩ |
    ⟨ch, mux, -, -, rfl⟩ | ⟨p, mux, -, -, rfl⟩ | ⟨sel, thr, mux, hi, -, -, -, rfl⟩ | ⟨-, rfl⟩
  · exact ended_keepsLegal s st y fun hy => by_contra fun hne => hy (herr hne)
  · exact (setGain_keepsLegal s g hg).trans (ended_keepsLegal _ .ok none fun _ => rfl)
  · exact (setRate_keepsLegal s r hr).trans (ended_keepsLegal _ .ok none fun _ => rfl)
  · rw [readPath_eq_advance]
    exact advance_iterate_keepsLegal s _ 3
  · rw [readPath_eq_advance]
    exact advance_iterate_keepsLegal s _ 3
  · rw [armPath_eq_advance]
    exact advance_iterate_keepsLegal s _ 2
  · rw [convertAndRead_eq_advance]
    exact advance_iterate_keepsLegal s _ 2

/-- A presented word keeps legal states, decodable or not. -/
theorem runWord_keepsLegal (cmd : CmdWord) (d : Word) (s t : State) (h : runWord cmd d s = .next t) :
    KeepsLegal s t := by
  unfold runWord at h
  split at h
  · exact exec_keepsLegal _ s t h
  · cases h
    exact ended_keepsLegal s .illegalOperation none (absurd rfl)

/-- What the Caller asks of a handle keeps legal states. -/
theorem served_keepsLegal (run : State → Host.Outcome State Fault Refusal) (s t : State)
    (hrun : (∃ cmd d, run = runWord cmd d) ∨ run = readResult) (h : run s = .next t) : KeepsLegal s t := by
  rcases hrun with ⟨cmd, d, rfl⟩ | rfl
  · exact runWord_keepsLegal cmd d s t h
  · rw [readResult_next s t h]
    exact .refl s

/-! ## The invariant over all handles -/

theorem inv_iff (s : State) :
    s.Inv ↔ paramsWf s.params ∧ (∀ k h, s.handle k = some h → handleOk s.params h) ∧ s.devRegs.wf := by
  simp only [State.Inv, State.mem_handles]
  exact and_congr_right fun _ => and_congr_left fun _ =>
    ⟨fun hs k h hk => hs h ⟨k, hk⟩, fun hs h ⟨k, hk⟩ => hs k h hk⟩

/-- A run on handle `k` that keeps legal states keeps the invariant. -/
theorem inv_swap (s u : State) (k : Nat) (target : Handle) (hs : s.Inv) (hk : s.handle k = some target)
    (hu : KeepsLegal (s.swap k) u) : (u.swap k).Inv := by
  obtain ⟨hparams, hhandles, hdev⟩ := (inv_iff s).1 hs
  have hp : u.params = s.params := hu.params.trans (s.swap_params k)
  have hfront : handleOk s.params u.h := by
    have hlegal := hu.handle
    rw [State.swap_params, State.swap_h s k target hk] at hlegal
    exact hlegal (hhandles k target hk)
  rw [inv_iff, State.swap_params, State.swap_devRegs, hp]
  refine ⟨hparams, fun j h hj => ?_, hu.devRegs (by rwa [State.swap_devRegs])⟩
  rw [State.swap_swap_handle s u k target hk hu.peers j] at hj
  by_cases hjk : j = k
  · rw [if_pos hjk] at hj
    cases hj
    exact hfront
  · rw [if_neg hjk] at hj
    exact hhandles j h hj

/-- Legal tables are legal for each variant. -/
theorem tablesWf_ratesWf (T : CodecTables) (v : Variant) (hT : tablesWf T) : ratesWf T v := by
  obtain ⟨-, -, -, -, -, hlow, hhigh, -⟩ := hT
  cases v with
  | lowRes => exact hlow
  | highRes => exact hhigh

/-- The default rate index is one of the variant's (41_variant_tables R75). -/
theorem defaultRate_lt (T : CodecTables) (v : Variant) (hT : tablesWf T) : defaultRate T v < rateCount v := by
  obtain ⟨-, -, hlength, -, -, -, hdefault, -⟩ := tablesWf_ratesWf T v hT
  rw [← hlength]
  exact List.idxOf_lt_length_of_mem hdefault

/-- Creation with a strapped address sets up a legal handle (70_reset_and_hazards R116). -/
theorem newHandle_ok (P : Params) (v : Variant) (addr : BitVec 7) (bus : Nat) (hP : paramsWf P)
    (haddr : addr ∈ P.tables.addrs) : handleOk P (newHandle P v addr bus) :=
  ⟨haddr, hP.2, defaultRate_lt P.tables v hP.1, absurd rfl⟩

theorem createPeer_inv (v : Variant) (addr : BitVec 7) (bus : Nat) (s : State) (hs : s.Inv) :
    (createPeer v addr bus s).Inv := by
  obtain ⟨hparams, hhandles, hdev⟩ := hs
  unfold createPeer createHandle
  by_cases haddr : addr ∈ s.params.tables.addrs
  · rw [if_pos haddr]
    refine ⟨hparams, fun h hh => ?_, hdev⟩
    rcases List.mem_append.1 (show h ∈ (s.h :: s.peers) ++ [newHandle s.params v addr bus] from hh) with hold | hnew
    · exact hhandles h hold
    · rw [List.mem_singleton.1 hnew]
      exact newHandle_ok s.params v addr bus hparams haddr
  · rw [if_neg haddr]
    exact ⟨hparams, hhandles, hdev⟩

/-! ## The statements of 10_state -/

/-- Settles O58, by the cases of a step: a transition and a served request each keep their handle legal and leave the
others, and a created handle is legal. -/
theorem stepKeepsLegalStates : Obligations.StepKeepsLegalStates := by
  intro s t hs h
  rcases step_next s t h with rfl | ⟨j, other, hj, -, rfl⟩ | ⟨rest, k, target, run, u, hk, hu, rfl, hrun⟩ |
    ⟨rest, v, addr, bus, rfl⟩
  · exact hs
  · exact inv_swap s _ j other hs hj (advance_transition _).keepsLegal
  · exact inv_swap { s with requests := rest } u k target hs (by rw [State.handle_requests, hk])
      (served_keepsLegal run _ u hrun hu)
  · exact createPeer_inv v addr bus { s with requests := rest } hs

/-- Settles O51, by the bus path that each meaning runs once its operands are validated. -/
theorem phasesRefineTheMeanings : Obligations.PhasesRefineTheMeanings := by
  refine ⟨fun s ch mux hmux => ?_, fun s p mux hmux => ?_, fun s sel thr mux hi hmux hthr => ?_, fun s => ?_⟩
  · rw [exec_readSe, hmux, ← readPath_eq_advance]
  · rw [exec_readDiff, hmux, ← readPath_eq_advance]
  · rw [exec_startComparator, hmux, ← armPath_eq_advance]
    dsimp only
    rw [hthr]
  · rw [exec_getLastConversion, ← convertAndRead_eq_advance]

/-- Settles O52: every `advance` is a transition. -/
theorem transitionsAreTheListed : Obligations.TransitionsAreTheListed := fun s =>
  have ht := advance_transition s
  ⟨ht.phase, ht.requests, ht.peers, ht.params, ht.handle⟩

end Sys2Proof.Machine
end

section
/-! Independence of the wire byte order (20_memory R31): every meaning commutes with `State.withOrder`. A sequenced meaning
is a run of transitions, so it is enough that one transition does. -/

namespace Sys2Proof.Machine

/-! ## What the byte order leaves as it is -/

@[simp] theorem State.withOrder_h (o : WireByteOrder) (s : State) : (s.withOrder o).h = s.h := rfl
@[simp] theorem State.withOrder_tables (o : WireByteOrder) (s : State) :
    (s.withOrder o).params.tables = s.params.tables := rfl

/-- Resolving a selector does not read the byte order. -/
@[simp] theorem resolveInput_withOrder (o : WireByteOrder) (s : State) (sel : Selector) :
    resolveInput (s.withOrder o).params sel = resolveInput s.params sel := by
  cases sel <;> rfl

/-- The same for a differential pair, which `READ_DIFF` checks without a selector. -/
@[simp] theorem packInputDiff_withOrder (o : WireByteOrder) (s : State) (p : Nat) :
    packInputDiff (s.withOrder o).params p = packInputDiff s.params p :=
  resolveInput_withOrder o s (.diff p)

/-! ## Meanings that commute with the byte order -/

theorem conclude_withOrder (o : WireByteOrder) (s : State) (r : Except Status Word) :
    (s.withOrder o).conclude r = (s.conclude r).withOrder o := by
  cases r <;> rfl

/-- One transition, by the phase the handle is in: both machines get the same answer, so they take the same branch. -/
theorem advance_commute_withOrder (o : WireByteOrder) : Function.Commute advance (State.withOrder o) := by
  intro s
  cases h : s.h.phase with
  | idle => rw [advance_idle s h, advance_idle (s.withOrder o) h]
  | configuring todo =>
    cases todo with
    | readConfig mux =>
      rw [advance_readConfig s mux h, advance_readConfig (s.withOrder o) mux h]
      dsimp only
      rw [apply_ite (State.withOrder o)]
      rfl
    | armHigh mux hi =>
      rw [advance_armHigh s mux hi h, advance_armHigh (s.withOrder o) mux hi h]
      dsimp only
      rw [apply_ite (State.withOrder o)]
      rfl
    | armConfig mux =>
      rw [advance_armConfig s mux h, advance_armConfig (s.withOrder o) mux h]
      dsimp only
      rw [apply_ite (State.withOrder o)]
      rfl
  | converting =>
    rw [advance_converting s h, advance_converting (s.withOrder o) h]
    rfl
  | reading =>
    rw [advance_reading s h, advance_reading (s.withOrder o) h, apply_ite (State.withOrder o), ← conclude_withOrder]
    rfl

/-- Any number of transitions, from whatever phase an operation starts in. -/
theorem advance_iterate_withOrder (o : WireByteOrder) (s : State) (p : Phase) (n : Nat) :
    advance^[n] ((s.withOrder o).setPhase p) = (advance^[n] (s.setPhase p)).withOrder o :=
  (advance_commute_withOrder o).iterate_left n (s.setPhase p)

theorem convertAndRead_withOrder (o : WireByteOrder) (s : State) :
    convertAndRead (s.withOrder o) = (convertAndRead s).withOrder o := by
  rw [convertAndRead_eq_advance, convertAndRead_eq_advance, advance_iterate_withOrder]

theorem readPath_withOrder (o : WireByteOrder) (mux : Word) (s : State) :
    readPath mux (s.withOrder o) = (readPath mux s).withOrder o := by
  rw [readPath_eq_advance, readPath_eq_advance, advance_iterate_withOrder]

theorem armPath_withOrder (o : WireByteOrder) (mux hi : Word) (s : State) :
    armPath mux hi (s.withOrder o) = (armPath mux hi s).withOrder o := by
  rw [armPath_eq_advance, armPath_eq_advance, advance_iterate_withOrder]

/-- An operation that is neither sequenced nor a setter only concludes, with a value or a status that the byte order has no
part in. -/
theorem exec_concludes_withOrder (o : WireByteOrder) (i : Instr) (s : State) (hseq : i.isSequenced = false)
    (hset : i.setsHandle = false) :
    ∃ r, exec i s = .next (s.conclude r) ∧ exec i (s.withOrder o) = .next ((s.withOrder o).conclude r) := by
  cases i with
  | readSe | readDiff | startComparator | getLastConversion => cases hseq
  | setGain | setRate => cases hset
  | packGain | packInputSe | packInputDiff | packRate | buildReadConfig | buildComparatorConfig | decodeResult
  | encodeThreshold => exact ⟨_, rfl, rfl⟩
  | samplesPerSecond | bitShift | rateRegisterBits | conversionDelay | getGain | getRate | getAddress =>
    exact ⟨.ok _, rfl, rfl⟩

theorem exec_withOrder_of_concludes (o : WireByteOrder) (i : Instr) (s t : State) (hseq : i.isSequenced = false)
    (hset : i.setsHandle = false) (h : exec i s = .next t) : exec i (s.withOrder o) = .next (t.withOrder o) := by
  obtain ⟨r, hs, hso⟩ := exec_concludes_withOrder o i s hseq hset
  rw [hs] at h
  cases h
  rw [hso, conclude_withOrder]

/-! ## The statement of 20_memory R31 -/

/-- Settles O48, by the kinds of operation: a setter, which checks its index; a sequenced one, which checks its operands and
then runs its bus path; and one that only concludes. -/
theorem wireByteOrderIsNeverRead : Obligations.WireByteOrderIsNeverRead := by
  intro i s t o h
  cases i with
  | setGain | setRate =>
    cases h
    rw [apply_ite (State.withOrder o)]
    rfl
  | readSe ch =>
    cases h
    rw [exec_readSe, State.withOrder_tables]
    cases packInputSe s.params.tables ch with
    | ok mux => exact congrArg Host.Outcome.next (readPath_withOrder o mux s)
    | error e => rfl
  | readDiff p =>
    cases h
    rw [exec_readDiff, packInputDiff_withOrder]
    cases packInputDiff s.params p with
    | ok mux => exact congrArg Host.Outcome.next (readPath_withOrder o mux s)
    | error e => rfl
  | startComparator sel thr =>
    cases h
    rw [exec_startComparator, resolveInput_withOrder, State.withOrder_h]
    cases resolveInput s.params sel with
    | error e => rfl
    | ok mux =>
      cases encodeThreshold (shiftOf s.h.variant) thr with
      | ok hi => exact congrArg Host.Outcome.next (armPath_withOrder o mux hi s)
      | error e => rfl
  | getLastConversion =>
    cases h
    exact congrArg Host.Outcome.next (convertAndRead_withOrder o s)
  | _ => exact exec_withOrder_of_concludes o _ s t rfl rfl h

end Sys2Proof.Machine
end

section
/-! The command word (30_encoding Part B): an operation's words are exactly the words that decode to it, and the masks of the
opcode table say which words those are. Rows come in four shapes, by the operand bytes they read: `A`, `B` and `C`; `A` and
`B`; `A`; none. -/

namespace Sys2Proof

/-! ## Bytes of a command word -/

@[simp] theorem isByte_iff (n : Nat) : isByte n = true ↔ n < 256 := decide_eq_true_iff

theorem fieldA_lt (cmd : CmdWord) : fieldA cmd < 256 := BitVec.isLt _
theorem fieldB_lt (cmd : CmdWord) : fieldB cmd < 256 := BitVec.isLt _
theorem fieldC_lt (cmd : CmdWord) : fieldC cmd < 256 := BitVec.isLt _

/-- A word is put together again from its four bytes (30_encoding R53). -/
theorem cmdWord_fields (cmd : CmdWord) : cmdWord (opOf cmd) (fieldA cmd) (fieldB cmd) (fieldC cmd) = cmd := by
  simp only [cmdWord, opOf, fieldA, fieldB, fieldC, BitVec.ofNat_toNat, BitVec.setWidth_eq]
  rw [BitVec.extractLsb'_append_extractLsb'_eq_extractLsb' (start₂ := 8) (start₁ := 0) (by rfl),
    BitVec.extractLsb'_append_extractLsb'_eq_extractLsb' (start₂ := 16) (start₁ := 0) (by rfl),
    BitVec.extractLsb'_append_extractLsb'_eq_extractLsb' (start₂ := 24) (start₁ := 0) (by rfl)]
  exact BitVec.extractLsb'_eq_self

/-- Words are equal exactly when their bytes are. -/
theorem bytes_inj {op a b c op' a' b' c' : Byte} :
    op ++ (a ++ (b ++ c)) = op' ++ (a' ++ (b' ++ c')) ↔ op = op' ∧ a = a' ∧ b = b' ∧ c = c' := by
  refine ⟨fun h => ⟨?_, ?_, ?_, ?_⟩, fun ⟨hop, ha, hb, hc⟩ => by rw [hop, ha, hb, hc]⟩
  · simpa only [opOf_append, BitVec.toNat_inj] using congrArg opOf h
  · simpa only [fieldA_append, BitVec.toNat_inj] using congrArg fieldA h
  · simpa only [fieldB_append, BitVec.toNat_inj] using congrArg fieldB h
  · simpa only [fieldC_append, BitVec.toNat_inj] using congrArg fieldC h

/-! ## An operation's words -/

/-- The word and the data port that encode the operation; on a row that ignores `D` any data port will do
(30_encoding R54, R58 (d)). -/
structure Instr.EncodedBy (i : Instr) (cmd : CmdWord) (d : Word) : Prop where
  wellFormed : i.wellFormed = true
  cmd : (encode i).cmd = cmd
  d : i.readsD = true → (encode i).d = d

/-- An operation's words decode to it, by the shape of its row. -/
theorem decode_of_encodedBy (i : Instr) (cmd : CmdWord) (d : Word) (h : i.EncodedBy cmd d) : decode cmd d = .ok i := by
  obtain ⟨hw, rfl, hd⟩ := h
  cases i with
  | packGain | packInputSe | packInputDiff | setGain | setRate | readSe | readDiff =>
    rw [Instr.wellFormed, isByte_iff] at hw
    exact decode_cmdWord _ _ 0 0 d (by decide) hw (by decide) (by decide)
  | decodeResult | encodeThreshold =>
    rw [Instr.wellFormed, isByte_iff] at hw
    obtain rfl := hd rfl
    exact decode_cmdWord _ _ 0 0 _ (by decide) hw (by decide) (by decide)
  | startComparator sel thr =>
    obtain rfl := hd rfl
    rw [Instr.wellFormed] at hw
    rw [encode, decode_cmdWord _ _ 0 0 thr (by decide) (toByte_lt sel hw) (by decide) (by decide), decodeFields,
      selectorOf_toByte sel hw]
    rfl
  | packRate v r =>
    simp only [Instr.wellFormed, Bool.and_eq_true, isByte_iff] at hw
    obtain ⟨hv, hr⟩ := hw
    exact decode_cmdWord _ _ _ 0 d (by decide) hv hr (by decide)
  | buildReadConfig g sel r | buildComparatorConfig g sel r =>
    simp only [Instr.wellFormed, Bool.and_eq_true, isByte_iff] at hw
    obtain ⟨⟨hg, hsel⟩, hr⟩ := hw
    rw [encode, decode_cmdWord _ _ _ _ d (by decide) hg (toByte_lt sel hsel) hr, decodeFields, selectorOf_toByte sel hsel]
    rfl
  | samplesPerSecond | bitShift | rateRegisterBits | conversionDelay | getGain | getRate | getAddress | getLastConversion =>
    exact decode_cmdWord _ 0 0 0 d (by decide) (by decide) (by decide) (by decide)

/-- A word decodes to no operation but the one it encodes, row by row of the opcode map: the bytes that a row marks 0 are zero
in the word, and the other bytes are operands. -/
theorem encodedBy_of_decodeFields (op a b c : Nat) (d : Word) (i : Instr) (ha : a < 256) (hb : b < 256) (hc : c < 256)
    (h : decodeFields op a b c d = .ok i) : i.EncodedBy (cmdWord op a b c) d := by
  unfold decodeFields at h
  split at h
  case h_22 => cases h
  all_goals
    obtain ⟨hzero, rfl⟩ := (whenZero_eq_ok _ _ _).1 h
    simp only [List.forall_mem_cons, List.not_mem_nil, IsEmpty.forall_iff, implies_true, and_true] at hzero
  -- `A`, `B` and `C`: the builders
  case h_5 | h_6 =>
    refine ⟨?_, ?_, nofun⟩
    · simp [Instr.wellFormed, ha, hc, selectorOf_wellFormed b hb]
    · rw [encode, toByte_selectorOf]
  -- `A` and `B`: `PACK_RATE`
  case h_4 =>
    subst hzero
    exact ⟨by simp [Instr.wellFormed, ha, hb], rfl, nofun⟩
  -- no operand: the lookups, the getters and `GET_LAST_CONVERSION`
  case h_9 | h_10 | h_11 | h_12 | h_14 | h_16 | h_17 | h_21 =>
    obtain ⟨rfl, rfl, rfl⟩ := hzero
    exact ⟨rfl, rfl, nofun⟩
  -- `A` only; the last three rows read the data port as well, and `START_COMPARATOR` takes `A` as a selector
  all_goals obtain ⟨rfl, rfl⟩ := hzero
  case h_1 | h_2 | h_3 | h_13 | h_15 | h_18 | h_19 => exact ⟨(isByte_iff a).2 ha, rfl, nofun⟩
  case h_7 | h_8 => exact ⟨(isByte_iff a).2 ha, rfl, fun _ => rfl⟩
  case h_20 => exact ⟨selectorOf_wellFormed a ha, by rw [encode, toByte_selectorOf], fun _ => rfl⟩

/-- The decoder is the encoder's relation read backwards. -/
theorem decode_eq_ok_iff (cmd : CmdWord) (d : Word) (i : Instr) : decode cmd d = .ok i ↔ i.EncodedBy cmd d := by
  refine ⟨fun h => ?_, decode_of_encodedBy i cmd d⟩
  have he := encodedBy_of_decodeFields _ _ _ _ d i (fieldA_lt cmd) (fieldB_lt cmd) (fieldC_lt cmd) h
  rwa [cmdWord_fields] at he

/-! ## The opcode table -/

/-- The mask byte of a column: all ones where the row marks the byte 0, and nothing where the byte is an operand. -/
def columnMask (zero : Bool) : Byte := cond zero 0xFF 0

theorem and_columnMask (x : Byte) (zero : Bool) : x &&& columnMask zero = 0#8 ↔ (zero = true → x = 0#8) := by
  have hones : x &&& 255#8 = x := BitVec.and_allOnes
  cases zero <;> simp [columnMask, hones]

/-- A word meets a row whose columns `A`, `B`, `C` are marked as said exactly when its opcode is the row's and its marked bytes
are zero (30_encoding R54, R58 (b)). -/
theorem meets_row_iff {op a b c o : Byte} {za zb zc : Bool} :
    (op ++ (a ++ (b ++ c))) &&& (0xFF#8 ++ (columnMask za ++ (columnMask zb ++ columnMask zc))) =
        o ++ (0#8 ++ (0#8 ++ 0#8)) ↔
      op = o ∧ (za = true → a = 0#8) ∧ (zb = true → b = 0#8) ∧ (zc = true → c = 0#8) := by
  have hop : op &&& 0xFF#8 = op := BitVec.and_allOnes
  rw [BitVec.and_append, BitVec.and_append, BitVec.and_append, bytes_inj, hop, and_columnMask, and_columnMask,
    and_columnMask]

/-- The word that encodes an operation meets the operation's row. -/
theorem encode_meets_row (i : Instr) :
    ∃ row ∈ opcodeTable, row.mnemonic = i.mnemonic ∧ (encode i).cmd &&& row.mask = row.matchWord := by
  cases i with
  | buildReadConfig | buildComparatorConfig =>
    refine ⟨⟨_, cmdWord _ 0 0 0, 0xFF000000⟩, ?_, rfl,
      (meets_row_iff (za := false) (zb := false) (zc := false)).2 ⟨rfl, nofun, nofun, nofun⟩⟩
    simp [opcodeTable, cmdWord]
  | packRate =>
    refine ⟨⟨_, cmdWord _ 0 0 0, 0xFF0000FF⟩, ?_, rfl,
      (meets_row_iff (za := false) (zb := false) (zc := true)).2 ⟨rfl, nofun, nofun, fun _ => rfl⟩⟩
    simp [opcodeTable, cmdWord]
  | packGain | packInputSe | packInputDiff | decodeResult | encodeThreshold | setGain | setRate | readSe | readDiff
  | startComparator =>
    refine ⟨⟨_, cmdWord _ 0 0 0, 0xFF00FFFF⟩, ?_, rfl,
      (meets_row_iff (za := false) (zb := true) (zc := true)).2 ⟨rfl, nofun, fun _ => rfl, fun _ => rfl⟩⟩
    simp [opcodeTable, cmdWord]
  | samplesPerSecond | bitShift | rateRegisterBits | conversionDelay | getGain | getRate | getAddress | getLastConversion =>
    refine ⟨⟨_, cmdWord _ 0 0 0, 0xFFFFFFFF⟩, ?_, rfl,
      (meets_row_iff (za := true) (zb := true) (zc := true)).2 ⟨rfl, fun _ => rfl, fun _ => rfl, fun _ => rfl⟩⟩
    simp [opcodeTable, cmdWord]

/-- Every word that meets the row decodes to an operation with the row's name. -/
def OpcodeRow.Accepted (row : OpcodeRow) : Prop :=
  ∀ (cmd : CmdWord) (d : Word), cmd &&& row.mask = row.matchWord → ∃ i, decode cmd d = .ok i ∧ i.mnemonic = row.mnemonic

/-- A row is accepted once the decoder takes its opcode with zero in the columns marked so and any operand in the others. -/
theorem accepted_of_columns {name : String} (op : Byte) (za zb zc : Bool)
    (hrow : ∀ (a b c : Nat) (d : Word), ∃ i,
      decodeFields op.toNat (cond za 0 a) (cond zb 0 b) (cond zc 0 c) d = .ok i ∧ i.mnemonic = name) :
    OpcodeRow.Accepted ⟨name, op ++ (0#8 ++ (0#8 ++ 0#8)), 0xFF#8 ++ (columnMask za ++ (columnMask zb ++ columnMask zc))⟩ := by
  have hcolumn {z : Bool} {x : Byte} (hx : z = true → x = 0#8) : cond z 0 x.toNat = x.toNat := by
    cases z with
    | false => rfl
    | true => rw [hx rfl]; rfl
  intro cmd d hmeets
  obtain ⟨o, a, b, c, rfl⟩ : ∃ o a b c : Byte, cmd = o ++ (a ++ (b ++ c)) := ⟨_, _, _, _, (cmdWord_fields cmd).symm⟩
  obtain ⟨rfl, ha, hb, hc⟩ := meets_row_iff.1 hmeets
  have hi := hrow a.toNat b.toNat c.toNat d
  rwa [hcolumn ha, hcolumn hb, hcolumn hc, ← decode_append] at hi

/-- The opcode map of 30_encoding R54, row by row: the opcode, and which of the columns `A`, `B`, `C` are 0. -/
theorem table_accepted : ∀ row ∈ opcodeTable, row.Accepted := by
  simp only [opcodeTable, List.cons_append, List.nil_append, List.forall_mem_cons]
  exact
    ⟨accepted_of_columns 0x01 false true true fun _ _ _ _ => ⟨_, rfl, rfl⟩,
     accepted_of_columns 0x02 false true true fun _ _ _ _ => ⟨_, rfl, rfl⟩,
     accepted_of_columns 0x03 false true true fun _ _ _ _ => ⟨_, rfl, rfl⟩,
     accepted_of_columns 0x04 false false true fun _ _ _ _ => ⟨_, rfl, rfl⟩,
     accepted_of_columns 0x05 false false false fun _ _ _ _ => ⟨_, rfl, rfl⟩,
     accepted_of_columns 0x06 false false false fun _ _ _ _ => ⟨_, rfl, rfl⟩,
     accepted_of_columns 0x07 false true true fun _ _ _ _ => ⟨_, rfl, rfl⟩,
     accepted_of_columns 0x08 false true true fun _ _ _ _ => ⟨_, rfl, rfl⟩,
     accepted_of_columns 0x10 true true true fun _ _ _ _ => ⟨_, rfl, rfl⟩,
     accepted_of_columns 0x11 true true true fun _ _ _ _ => ⟨_, rfl, rfl⟩,
     accepted_of_columns 0x12 true true true fun _ _ _ _ => ⟨_, rfl, rfl⟩,
     accepted_of_columns 0x13 true true true fun _ _ _ _ => ⟨_, rfl, rfl⟩,
     accepted_of_columns 0x20 false true true fun _ _ _ _ => ⟨_, rfl, rfl⟩,
     accepted_of_columns 0x21 true true true fun _ _ _ _ => ⟨_, rfl, rfl⟩,
     accepted_of_columns 0x22 false true true fun _ _ _ _ => ⟨_, rfl, rfl⟩,
     accepted_of_columns 0x23 true true true fun _ _ _ _ => ⟨_, rfl, rfl⟩,
     accepted_of_columns 0x24 true true true fun _ _ _ _ => ⟨_, rfl, rfl⟩,
     accepted_of_columns 0x30 false true true fun _ _ _ _ => ⟨_, rfl, rfl⟩,
     accepted_of_columns 0x31 false true true fun _ _ _ _ => ⟨_, rfl, rfl⟩,
     accepted_of_columns 0x32 false true true fun _ _ _ _ => ⟨_, rfl, rfl⟩,
     accepted_of_columns 0x33 true true true fun _ _ _ _ => ⟨_, rfl, rfl⟩,
     fun _ hrow => absurd hrow List.not_mem_nil⟩

/-! ## The statements of 30_encoding Part B -/

/-- Settles O1: the encoding of a well-formed operation is one of its words. -/
theorem decodeInvertsEncode : Obligations.DecodeInvertsEncode := fun i hi =>
  decode_of_encodedBy i _ _ ⟨hi, rfl, fun _ => rfl⟩

/-- Settles O2: what a word decodes to is encoded by it. -/
theorem acceptedWordIsItsEncoding : Obligations.AcceptedWordIsItsEncoding := fun cmd d i h =>
  have he := (decode_eq_ok_iff cmd d i).1 h
  ⟨he.wellFormed, he.cmd, he.d⟩

/-- Settles O3: an accepted word is an encoding, which meets its row and does not fix a data port that the row ignores; and
each row of the table is accepted. -/
theorem decoderAcceptsExactlyTheTable : Obligations.DecoderAcceptsExactlyTheTable := by
  intro cmd d
  refine ⟨fun i h => ?_, fun row hrow hmeets => table_accepted row hrow cmd d hmeets, fun i d' h hd => ?_⟩
  · rw [← ((decode_eq_ok_iff cmd d i).1 h).cmd]
    exact encode_meets_row i
  · have he := (decode_eq_ok_iff cmd d i).1 h
    exact decode_of_encodedBy i cmd d' ⟨he.wellFormed, he.cmd, fun hreads => absurd hreads (by simp [hd])⟩

/-- Settles O4: the listed words run through the decoder. -/
theorem specWordsDecode : Obligations.SpecWordsDecode :=
  ⟨rfl, rfl, rfl, rfl, rfl, rfl, rfl⟩

end Sys2Proof
end

section
/-! The configuration register and its field codes (30_encoding R43, R62): a configuration word is the sum of its positioned
fields, from which both directions of packing follow; and the code tables are searched backwards. -/

namespace Sys2Proof.Machine

/-! ## The configuration word (30_encoding R43) -/

/-- A field shifted to its place is worth its value times the place's weight. -/
theorem toNat_setWidth_shiftLeft {n : Nat} (x : BitVec n) (pos : Nat) (h : pos + n ≤ 16) :
    (x.setWidth 16 <<< pos).toNat = 2 ^ pos * x.toNat := by
  have hx : 2 ^ pos * x.toNat < 2 ^ 16 := calc
    2 ^ pos * x.toNat < 2 ^ pos * 2 ^ n := Nat.mul_lt_mul_of_pos_left x.isLt (by positivity)
    _ = 2 ^ (pos + n) := (pow_add 2 pos n).symm
    _ ≤ 2 ^ 16 := Nat.pow_le_pow_right (by decide) h
  have hx' : x.toNat < 2 ^ 16 := x.isLt.trans_le (Nat.pow_le_pow_right (by decide) (by omega))
  rw [BitVec.toNat_shiftLeft, BitVec.toNat_setWidth, Nat.mod_eq_of_lt hx', Nat.shiftLeft_eq, mul_comm, Nat.mod_eq_of_lt hx]

/-- The fields of a configuration register are as wide as 30_encoding R42 says. -/
theorem fields_toNat_lt (f : ConfigFields) :
    f.os.toNat < 2 ^ 1 ∧ f.mux.toNat < 2 ^ 3 ∧ f.pga.toNat < 2 ^ 3 ∧ f.mode.toNat < 2 ^ 1 ∧ f.dr.toNat < 2 ^ 3 ∧
    f.cmode.toNat < 2 ^ 1 ∧ f.cpol.toNat < 2 ^ 1 ∧ f.clat.toNat < 2 ^ 1 ∧ f.cque.toNat < 2 ^ 2 :=
  ⟨f.os.isLt, f.mux.isLt, f.pga.isLt, f.mode.isLt, f.dr.isLt, f.cmode.isLt, f.cpol.isLt, f.clat.isLt, f.cque.isLt⟩

/-- The sum form of 30_encoding R43: from the lowest place up, the fields below a place stay below its weight, so ORing the
field at that place is adding it. -/
theorem configWord_toNat (f : ConfigFields) : (configWord f).toNat =
    f.os.toNat * 2 ^ 15 + f.mux.toNat * 2 ^ 12 + f.pga.toNat * 2 ^ 9 + f.mode.toNat * 2 ^ 8 + f.dr.toNat * 2 ^ 5 +
    f.cmode.toNat * 2 ^ 4 + f.cpol.toNat * 2 ^ 3 + f.clat.toNat * 2 ^ 2 + f.cque.toNat := by
  have hlt := fields_toNat_lt f
  simp (disch := decide) only [configWord, positioned, BitVec.toNat_or, toNat_setWidth_shiftLeft,
    BitVec.toNat_setWidth_of_le, Nat.or_assoc]
  rw [← Nat.two_pow_add_eq_or_of_lt (i := 2) (by omega), ← Nat.two_pow_add_eq_or_of_lt (i := 3) (by omega),
    ← Nat.two_pow_add_eq_or_of_lt (i := 4) (by omega), ← Nat.two_pow_add_eq_or_of_lt (i := 5) (by omega),
    ← Nat.two_pow_add_eq_or_of_lt (i := 8) (by omega), ← Nat.two_pow_add_eq_or_of_lt (i := 9) (by omega),
    ← Nat.two_pow_add_eq_or_of_lt (i := 12) (by omega), ← Nat.two_pow_add_eq_or_of_lt (i := 15) (by omega)]
  omega

/-- Extraction divides the sum by a field's weight: the fields below it are the remainder. -/
theorem fieldsOf_configWord (f : ConfigFields) : fieldsOf (configWord f) = f := by
  have hlt := fields_toNat_lt f
  have hsum := configWord_toNat f
  cases f
  dsimp only at hlt hsum
  simp only [fieldsOf, ConfigFields.mk.injEq, ← BitVec.toNat_inj, BitVec.extractLsb'_toNat, Nat.shiftRight_eq_div_pow]
  omega

/-- A field of `m` bits above the low `p` bits of a word completes its low `p + m` bits. -/
theorem field_add_mod (n p m q : Nat) (hq : q = p + m) : n / 2 ^ p % 2 ^ m * 2 ^ p + n % 2 ^ p = n % 2 ^ q := by
  rw [hq, pow_add, Nat.mod_mul, mul_comm, add_comm]

/-- The extracted fields, added from the lowest up, complete the word. -/
theorem configWord_fieldsOf (w : Word) : configWord (fieldsOf w) = w := by
  apply BitVec.eq_of_toNat_eq
  rw [configWord_toNat]
  simp only [fieldsOf, BitVec.extractLsb'_toNat, Nat.shiftRight_eq_div_pow, pow_zero, Nat.div_one]
  rw [add_assoc, field_add_mod _ 2 1 3 rfl, add_assoc, field_add_mod _ 3 1 4 rfl, add_assoc, field_add_mod _ 4 1 5 rfl,
    add_assoc, field_add_mod _ 5 3 8 rfl, add_assoc, field_add_mod _ 8 1 9 rfl, add_assoc, field_add_mod _ 9 3 12 rfl,
    add_assoc, field_add_mod _ 12 3 15 rfl, field_add_mod _ 15 1 16 rfl]
  exact Nat.mod_eq_of_lt w.isLt

/-! ## Field decoders (30_encoding R62) -/

/-- In a table of distinct codes, the index with the code at an index is that index. -/
theorem indexOfCode_of_getElem? {codes : List (BitVec 3)} (hcodes : codes.Nodup) {i : Nat} {c : BitVec 3}
    (h : codes[i]? = some c) : indexOfCode codes c = some i := by
  obtain ⟨hi, rfl⟩ := List.getElem?_eq_some_iff.1 h
  rw [indexOfCode, if_pos (List.getElem_mem hi), hcodes.idxOf_getElem i hi]

theorem indexOfCode_eq_none_iff (codes : List (BitVec 3)) (c : BitVec 3) : indexOfCode codes c = none ↔ c ∉ codes := by
  simp [indexOfCode]

/-- Eight distinct 3-bit codes are all the 3-bit codes there are. -/
theorem mem_of_nodup_of_length {codes : List (BitVec 3)} (hcodes : codes.Nodup) (h : codes.length = 8) (c : BitVec 3) :
    c ∈ codes := by
  by_contra hc
  have hlength := (List.nodup_cons.2 ⟨hc, hcodes⟩).length_le_card
  have hcard : Fintype.card (BitVec 3) = 8 := rfl
  rw [List.length_cons, h, hcard] at hlength
  exact absurd hlength (by decide)

/-- The pair's table is searched first. -/
theorem unpackMux_of_diff {T : CodecTables} {p : Nat} {code : BitVec 3} (hT : tablesWf T) (h : T.muxDiff[p]? = some code) :
    unpackMux T code = some (.diff p) := by
  obtain ⟨-, -, hmux, -⟩ := hT
  rw [unpackMux, indexOfCode_of_getElem? hmux.of_append_right h]

/-- A single-ended code is no differential one, so it is found in the second table. -/
theorem unpackMux_of_se {T : CodecTables} {ch : Nat} {code : BitVec 3} (hT : tablesWf T) (h : T.muxSe[ch]? = some code) :
    unpackMux T code = some (.se ch) := by
  obtain ⟨-, -, hmux, -⟩ := hT
  have hdiff : code ∉ T.muxDiff := List.disjoint_of_nodup_append hmux (List.mem_of_getElem? h)
  rw [unpackMux, (indexOfCode_eq_none_iff _ _).2 hdiff, indexOfCode_of_getElem? hmux.of_append_left h]
  rfl

/-- No mux code is reserved: the two tables share out all eight codes. -/
theorem unpackMux_ne_none {T : CodecTables} (hT : tablesWf T) (code : BitVec 3) : unpackMux T code ≠ none := by
  have ⟨hse, hdiff, hmux, _⟩ := hT
  have hmem := mem_of_nodup_of_length hmux (by rw [List.length_append, hse, hdiff]) code
  rcases List.mem_append.1 hmem with h | h
  · obtain ⟨ch, hch⟩ := List.mem_iff_getElem?.1 h
    simp [unpackMux_of_se hT hch]
  · obtain ⟨p, hp⟩ := List.mem_iff_getElem?.1 h
    simp [unpackMux_of_diff hT hp]

/-! ## The statements of 30_encoding R43 and R62 -/

/-- Settles O7: each direction, and the sum form that both rest on. -/
theorem configWordAndFieldsInverse : Obligations.ConfigWordAndFieldsInverse :=
  ⟨fieldsOf_configWord, configWord_fieldsOf, configWord_toNat⟩

/-- Settles O50: the codes of a legal table are distinct, and the two mux tables are one table of eight codes. -/
theorem fieldDecodersInvertTheTables : Obligations.FieldDecodersInvertTheTables := by
  intro T hT
  have ⟨_, _, _, _, hgain, _⟩ := hT
  have hrate (v : Variant) : (rateCodes T v).Nodup := by
    obtain ⟨-, hnodup, -⟩ := tablesWf_ratesWf T v hT
    exact hnodup
  exact ⟨fun g code => indexOfCode_of_getElem? hgain, fun code => (indexOfCode_eq_none_iff _ code).2,
    fun p code => unpackMux_of_diff hT, fun ch code => unpackMux_of_se hT, unpackMux_ne_none hT,
    fun v i code => indexOfCode_of_getElem? (hrate v), fun v code => (indexOfCode_eq_none_iff _ code).2⟩

end Sys2Proof.Machine
end

section
/-! The rows of the opcode map (30_encoding R54, R58 (b)) at the level of a step: where the decoder asks that the bytes a row
marks 0 be zero, the step runs the row's operation or ends in `IllegalOperation`. -/

namespace Sys2Proof

/-- The check of a row's zero columns, as a condition on them. -/
theorem whenZero_eq (reserved : List Nat) (i : Instr) :
    whenZero reserved i = if ∀ n ∈ reserved, n = 0 then .ok i else .error .reservedByteNonzero := by
  simp only [whenZero, List.all_eq_true, beq_iff_eq]

end Sys2Proof

namespace Sys2Proof.Machine

theorem runWord_of_ok {cmd : CmdWord} {d : Word} {i : Instr} (h : decode cmd d = .ok i) (s : State) :
    runWord cmd d s = exec i s := by
  rw [runWord, h]

theorem runWord_of_error {cmd : CmdWord} {d : Word} {e : DecodeError} (h : decode cmd d = .error e) (s : State) :
    runWord cmd d s = .next (s.ended .illegalOperation none) := by
  rw [runWord, h]
  rfl

/-- A step on a presented word of one row, whichever bytes the row marks 0. -/
theorem step_present_row {s : State} (hs : s.ready) {op a b c : Byte} {d : Word} {reserved : List Nat} {i : Instr}
    (h : decodeFields op.toNat a.toNat b.toNat c.toNat d = whenZero reserved i) :
    step (s.present op a b c d) =
      if ∀ n ∈ reserved, n = 0 then exec i s else .next (s.ended .illegalOperation none) := by
  rw [State.present, step_present s _ d hs]
  rw [← decode_append, whenZero_eq] at h
  split at h
  · rw [runWord_of_ok h, if_pos ‹_›]
  · rw [runWord_of_error h, if_neg ‹_›]

theorem rowABC_of_decodeFields {op : Byte} {mk : Byte → Byte → Byte → Instr}
    (h : ∀ (a b c : Byte) (d : Word), decodeFields op.toNat a.toNat b.toNat c.toNat d = whenZero [] (mk a b c)) :
    RowABC op mk := by
  intro s a b c d hs
  simp [step_present_row hs (h a b c d)]

theorem rowAB_of_decodeFields {op : Byte} {mk : Byte → Byte → Instr}
    (h : ∀ (a b c : Byte) (d : Word), decodeFields op.toNat a.toNat b.toNat c.toNat d = whenZero [c.toNat] (mk a b)) :
    RowAB op mk := by
  intro s a b c d hs
  simp [step_present_row hs (h a b c d), BitVec.toNat_eq]

theorem rowA_of_decodeFields {op : Byte} {mk : Byte → Word → Instr}
    (h : ∀ (a b c : Byte) (d : Word),
      decodeFields op.toNat a.toNat b.toNat c.toNat d = whenZero [b.toNat, c.toNat] (mk a d)) : RowA op mk := by
  intro s a b c d hs
  simp [step_present_row hs (h a b c d), BitVec.toNat_eq]

/-- The decoder's selector is the one the byte's bits spell (30_encoding R56). -/
theorem selectorOf_eq_selectorBits (b : Byte) : selectorOf b.toNat = selectorBits b := by
  have hlt := b.isLt
  have hbit : b.getLsbD 7 = decide (128 ≤ b.toNat) := BitVec.msb_eq_decide b
  have hlow : (b.extractLsb' 0 7).toNat = b.toNat % 128 := rfl
  rw [selectorOf, selectorBits, hbit, hlow]
  by_cases h : b.toNat < 128
  · rw [if_pos h, if_neg (by simpa using h), Nat.mod_eq_of_lt h]
  · rw [if_neg h, if_pos (by simpa using h)]
    exact congrArg Selector.diff (by omega)

end Sys2Proof.Machine
end

section
/-! The field packers and the configuration words (40_codec R63 to R68, R74): each packer is a table lookup placed in the
word, and a built word is the word of its kind's fixed bits and three codes, from which the kind can be read
back. -/

namespace Sys2Proof.Machine

/-! ## The meanings -/

theorem exec_packGain (g : Nat) (s : State) : exec (.packGain g) s = .next (s.conclude (packGain s.params.tables g)) := rfl

theorem exec_packInputSe (ch : Nat) (s : State) :
    exec (.packInputSe ch) s = .next (s.conclude (packInputSe s.params.tables ch)) := rfl

theorem exec_packInputDiff (p : Nat) (s : State) :
    exec (.packInputDiff p) s = .next (s.conclude (packInputDiff s.params p)) := rfl

theorem exec_packRate (v i : Nat) (s : State) :
    exec (.packRate v i) s = .next (s.conclude (packRate s.params.tables v i)) := rfl

theorem exec_buildReadConfig (g : Nat) (sel : Selector) (r : Nat) (s : State) : exec (.buildReadConfig g sel r) s =
    .next (s.conclude (buildConfig s.params.tables.readFixed s.params g sel r)) := rfl

theorem exec_buildComparatorConfig (g : Nat) (sel : Selector) (r : Nat) (s : State) :
    exec (.buildComparatorConfig g sel r) s =
      .next (s.conclude (buildConfig s.params.tables.compFixed s.params g sel r)) := rfl

theorem conclude_result_eq_some_iff (s : State) (r : Except Status Word) (w : Word) :
    (s.conclude r).h.result = some w ↔ r = .ok w := by
  cases r <;> simp [Machine.ended]

/-! ## Packers as table lookups -/

/-- What a packer answers for what its table holds: the code at its place, or the packer's status where there is none. -/
def packed (pos : Nat) (e : Status) : Option (BitVec 3) → Except Status Word
  | some code => .ok (positioned code pos)
  | none => .error e

/-- A packer that checks its index against the table's length answers what the table holds. -/
theorem packed_getElem? (codes : List (BitVec 3)) (pos : Nat) (e : Status) (i : Nat) :
    packed pos e codes[i]? = if i < codes.length then .ok (positioned (codeAt codes i) pos) else .error e := by
  split
  · rw [codeAt_get codes i ‹_›]
    rfl
  · rw [List.getElem?_eq_none (Nat.not_lt.1 ‹_›)]
    rfl

theorem packGain_eq_packed {T : CodecTables} (hT : tablesWf T) (g : Nat) :
    packGain T g = packed 9 .invalidOperand T.gain[g]? := by
  obtain ⟨-, -, -, hlen, -⟩ := hT
  rw [packed_getElem?, hlen, packGain]
  by_cases h : g > 5
  · rw [if_pos h, if_neg (by omega)]
  · rw [if_neg h, if_pos (by omega), gainField, gainCode]

/-- A single-ended input is a selector's input. -/
theorem packInputSe_eq_packed {P : Params} (hT : tablesWf P.tables) (ch : Nat) :
    packInputSe P.tables ch = packed 12 .invalidChannel P.tables.muxSe[ch]? := by
  have h := resolveInput_eq P (.se ch) hT
  rw [selCode_se] at h
  cases hc : P.tables.muxSe[ch]? <;> rw [hc] at h <;> exact h

theorem packInputDiff_eq_packed {P : Params} (hT : tablesWf P.tables) (p : Nat) :
    packInputDiff P p = packed 12 .invalidOperand (selCode P (.diff p)) := by
  have h := resolveInput_eq P (.diff p) hT
  cases hc : selCode P (.diff p) <;> rw [hc] at h <;> exact h

/-- With a variant that exists, the rate's check and lookup are of that variant's table. -/
theorem packRate_eq_packed {T : CodecTables} (hT : tablesWf T) {n : Nat} {v : Variant} (hv : variantOf n = some v)
    (i : Nat) : packRate T n i = packed 5 .invalidOperand (rateCodes T v)[i]? := by
  obtain ⟨hlen, -⟩ := tablesWf_ratesWf T v hT
  rw [packed_getElem?, hlen, packRate, hv]
  dsimp only
  by_cases h : i < rateCount v
  · rw [if_pos h, if_neg (by omega), rateField, rateCode]
  · rw [if_neg h, if_pos (by omega)]

theorem variantOf_eq_none {n : Nat} (h : n > 1) : variantOf n = none := by
  unfold variantOf
  split
  · cases h
  · exact absurd h (by decide)
  · rfl

/-- The refusals of 40_codec R66 need no legal tables. -/
theorem packRate_refused (T : CodecTables) (n i : Nat) (h : ∀ v, variantOf n = some v → rateCount v ≤ i) :
    packRate T n i = .error .invalidOperand := by
  rw [packRate]
  cases hv : variantOf n with
  | none => rfl
  | some v => exact if_pos (h v hv)

/-- A code keeps all its bits at its place. -/
theorem positioned_inj {c c' : BitVec 3} {pos : Nat} (hpos : pos + 3 ≤ 16) :
    positioned c pos = positioned c' pos ↔ c = c' := by
  rw [← BitVec.toNat_inj, ← BitVec.toNat_inj, positioned, positioned, toNat_setWidth_shiftLeft c pos hpos,
    toNat_setWidth_shiftLeft c' pos hpos]
  exact Nat.mul_right_inj (by positivity)

/-! ## Packers under the default tables -/

theorem packGain_default : ∀ g ≤ 5, packGain defaultTables g = .ok (BitVec.ofNat 16 (g * 512)) := by decide

theorem packInputSe_default : ∀ ch ≤ 3, packInputSe defaultTables ch = .ok (BitVec.ofNat 16 ((4 + ch) * 4096)) := by
  decide

theorem muxDiff_default : ∀ p ≤ 3, positioned (muxDiffCode defaultTables p) 12 = BitVec.ofNat 16 (p * 4096) := by decide

theorem packInputDiff_default {P : Params} (hT : P.tables = defaultTables) {p : Nat} (hp : p ≤ 3)
    (hext : ¬ ((p = 1 ∨ p = 2) ∧ P.extDiffPairs = false)) : packInputDiff P p = .ok (BitVec.ofNat 16 (p * 4096)) := by
  rw [packInputDiff, if_neg (by omega), if_neg hext, hT, muxDiff_default p hp]

theorem packRate_default_lowRes : ∀ i ≤ 6, packRate defaultTables 0 i = .ok (BitVec.ofNat 16 (i * 32)) := by decide

theorem packRate_default_highRes : ∀ i ≤ 7, packRate defaultTables 1 i = .ok (BitVec.ofNat 16 (i * 32)) := by decide

/-! ## Configuration words -/

/-- What a builder of either kind leaves, the operands checked in the order `A`, `B`, `C` (60_exceptions R106). -/
theorem conclude_buildConfig (b : FixedBits) (s : State) (g : Nat) (sel : Selector) (r : Nat)
    (hT : tablesWf s.params.tables) :
    s.conclude (buildConfig b s.params g sel r) = match s.params.tables.gain[g]?, selCode s.params sel with
      | none, _ => s.ended .invalidOperand none
      | some _, none => s.ended (selError sel) none
      | some pga, some mux =>
        if r > 7 then s.ended .invalidOperand none
        else s.ended .ok (some (kindWord b mux pga (BitVec.ofNat 3 r))) := by
  rw [buildConfig_eq b s.params g sel r hT]
  cases s.params.tables.gain[g]? with
  | none => rfl
  | some pga =>
    cases selCode s.params sel with
    | none => rfl
    | some mux => exact apply_ite s.conclude _ _ _

/-- A word that a builder answers has the kind's fixed bits and three codes. -/
theorem kindWord_of_buildConfig {b : FixedBits} {P : Params} {g : Nat} {sel : Selector} {r : Nat} {w : Word}
    (hT : tablesWf P.tables) (h : buildConfig b P g sel r = .ok w) : ∃ mux pga dr, w = kindWord b mux pga dr := by
  rw [buildConfig_eq b P g sel r hT] at h
  cases hg : P.tables.gain[g]? with
  | none => simp [hg] at h
  | some pga =>
    cases hsel : selCode P sel with
    | none => simp [hg, hsel] at h
    | some mux =>
      simp only [hg, hsel] at h
      split at h <;> cases h
      exact ⟨mux, pga, _, rfl⟩

/-- Bit 15 of a word is its kind's start bit. -/
theorem kindWord_getLsbD_15 (b : FixedBits) (mux pga dr : BitVec 3) :
    (kindWord b mux pga dr).getLsbD 15 = b.os.getLsbD 0 := by
  have hos : (kindWord b mux pga dr).extractLsb' 15 1 = b.os := congrArg ConfigFields.os (fieldsOf_configWord _)
  rw [← hos, BitVec.getLsbD_extractLsb']
  rfl

/-- The codes lie outside the mask of the fixed bits below the start bit (40_codec R74). -/
theorem positioned_and_fixedMask : ∀ c : BitVec 3,
    positioned c 12 &&& 0x011F = 0 ∧ positioned c 9 &&& 0x011F = 0 ∧ positioned c 5 &&& 0x011F = 0 := by decide

theorem kindWord_and_fixedMask (b : FixedBits) (mux pga dr : BitVec 3) :
    kindWord b mux pga dr &&& 0x011F = fixedWord b &&& 0x011F := by
  rw [← fixedWord_or, BitVec.and_or_distrib_right, BitVec.and_or_distrib_right, BitVec.and_or_distrib_right,
    (positioned_and_fixedMask mux).1, (positioned_and_fixedMask pga).2.1, (positioned_and_fixedMask dr).2.2]
  simp

/-- With fixed bits given as one word, the word of a kind is the OR of that and the three fields. -/
theorem kindWord_of_fixedWord {b : FixedBits} {fixed : Word} (h : fixedWord b = fixed) (mux pga dr : BitVec 3) :
    kindWord b mux pga dr =
      fixed ||| (mux.setWidth 16 <<< 12) ||| (pga.setWidth 16 <<< 9) ||| (dr.setWidth 16 <<< 5) := by
  rw [← fixedWord_or, h]
  rfl

theorem fixedWord_defaultReadFixed : fixedWord defaultReadFixed = 0x8103 := rfl

theorem fixedWord_defaultCompFixed : fixedWord defaultCompFixed = 0x0004 := rfl

/-! ## The statements of 40_codec R63 to R68 and R74 -/

/-- Settles O8: the packer is a lookup in the gain table. -/
theorem packGainGivesTheCode : Obligations.PackGainGivesTheCode := by
  refine ⟨rowA_of_decodeFields fun _ _ _ _ => rfl, fun s g hT => ?_, fun s g hg => ?_, fun s g hT hg => ?_⟩
  · rw [exec_packGain, packGain_eq_packed hT]
    cases s.params.tables.gain[g]? <;> rfl
  · rw [exec_packGain, packGain, if_pos hg]
    rfl
  · rw [exec_packGain, hT, packGain_default g hg]
    rfl

/-- Settles O9: the packer is a lookup in the table of single-ended codes, which are distinct. -/
theorem packInputSeGivesTheCode : Obligations.PackInputSeGivesTheCode := by
  refine ⟨rowA_of_decodeFields fun _ _ _ _ => rfl, fun s ch hT => ?_, fun s ch hch => ?_,
    fun s t u ch ch' hT hch hch' ht hu hresult => ?_, fun s ch hT hch => ?_⟩
  · rw [exec_packInputSe, packInputSe_eq_packed hT]
    cases s.params.tables.muxSe[ch]? <;> rfl
  · rw [exec_packInputSe, packInputSe_error _ ch hch]
    rfl
  · have ⟨hlen, _, hmux, _⟩ := hT
    have hcode := codeAt_get s.params.tables.muxSe ch (by omega)
    have hcode' := codeAt_get s.params.tables.muxSe ch' (by omega)
    rw [exec_packInputSe, packInputSe_ok _ ch _ hch hcode] at ht
    rw [exec_packInputSe, packInputSe_ok _ ch' _ hch' hcode'] at hu
    cases ht
    cases hu
    have heq := (positioned_inj (by decide)).1 (Option.some.inj hresult)
    exact (List.getElem?_inj (by omega) hmux.of_append_left).1 (by rw [hcode, hcode', heq])
  · rw [exec_packInputSe, hT, packInputSe_default ch hch]
    rfl

/-- Settles O10: the packer is a lookup of the pair's code, which pairs 1 and 2 may lack. -/
theorem packInputDiffGivesTheCode : Obligations.PackInputDiffGivesTheCode := by
  refine ⟨rowA_of_decodeFields fun _ _ _ _ => rfl, fun s p hT => ?_, fun s p hp => ?_, fun s p hT hp => ?_⟩
  · rw [exec_packInputDiff, packInputDiff_eq_packed hT]
    cases selCode s.params (.diff p) <;> rfl
  · rw [exec_packInputDiff, packInputDiff_error _ p hp]
    rfl
  · rw [exec_packInputDiff, packInputDiff_default hT (by omega)]
    · rfl
    · rintro ⟨hpair, hext⟩
      rcases hp with rfl | rfl | ⟨-, htrue⟩
      · omega
      · omega
      · rw [hext] at htrue
        cases htrue

/-- Settles O11: the packer is a lookup in the rate table of the variant that the variant byte names. -/
theorem packRateGivesTheCode : Obligations.PackRateGivesTheCode := by
  refine ⟨rowAB_of_decodeFields fun _ _ _ _ => rfl, fun s v i hv => ?_, fun s i hT => ⟨?_, ?_⟩, fun s v i hi => ?_,
    fun s v i hT hi => ?_⟩
  · rw [exec_packRate, packRate_refused]
    · rfl
    · rw [variantOf_eq_none hv]
      nofun
  · rw [exec_packRate, packRate_eq_packed hT (v := .lowRes) rfl, rateCodes]
    cases s.params.tables.rateLow[i]? <;> rfl
  · rw [exec_packRate, packRate_eq_packed hT (v := .highRes) rfl, rateCodes]
    cases s.params.tables.rateHigh[i]? <;> rfl
  · rw [exec_packRate, packRate_refused]
    · rfl
    · rcases hi with ⟨rfl, hi⟩ | ⟨rfl, hi⟩ <;> rintro v hv <;> cases hv <;> exact hi
  · rcases hi with ⟨rfl, hi⟩ | ⟨rfl, hi⟩
    · rw [exec_packRate, hT, packRate_default_lowRes i hi]
      rfl
    · rw [exec_packRate, hT, packRate_default_highRes i hi]
      rfl

/-- Settles O12: the builder of the read kind, and the read kind's default fixed word. -/
theorem buildReadConfigGivesTheWord : Obligations.BuildReadConfigGivesTheWord := by
  refine ⟨rowABC_of_decodeFields fun a b c d => ?_,
    fun s g sel r hT => congrArg Host.Outcome.next (conclude_buildConfig _ s g sel r hT),
    kindWord_of_fixedWord fixedWord_defaultReadFixed⟩
  rw [← selectorOf_eq_selectorBits]
  rfl

/-- Settles O13: the builder of the comparator kind, and the comparator kind's default fixed word. -/
theorem buildComparatorConfigGivesTheWord : Obligations.BuildComparatorConfigGivesTheWord := by
  refine ⟨rowABC_of_decodeFields fun a b c d => ?_,
    fun s g sel r hT => congrArg Host.Outcome.next (conclude_buildConfig _ s g sel r hT),
    kindWord_of_fixedWord fixedWord_defaultCompFixed⟩
  rw [← selectorOf_eq_selectorBits]
  rfl

/-- Settles O14: both words have their kind's fixed bits, and the kinds' start bits differ. -/
theorem configKindsAreDistinct : Obligations.ConfigKindsAreDistinct := by
  intro s t u g g' r r' sel sel' w w' hT ht hw hu hw'
  rw [exec_buildReadConfig] at ht
  rw [exec_buildComparatorConfig] at hu
  cases ht
  cases hu
  rw [conclude_result_eq_some_iff] at hw hw'
  obtain ⟨mux, pga, dr, rfl⟩ := kindWord_of_buildConfig hT hw
  obtain ⟨mux', pga', dr', rfl⟩ := kindWord_of_buildConfig hT hw'
  have ⟨_, _, _, _, _, _, _, hread, hcomp, _⟩ := hT
  have hbit : (kindWord s.params.tables.readFixed mux pga dr).getLsbD 15 = true := by
    rw [kindWord_getLsbD_15, hread]
    rfl
  have hbit' : (kindWord s.params.tables.compFixed mux' pga' dr').getLsbD 15 = false := by
    rw [kindWord_getLsbD_15, hcomp]
    rfl
  refine ⟨by rw [hbit, hbit']; decide, fun hdefault => ⟨hbit, ?_, hbit', ?_⟩⟩
  · rw [kindWord_and_fixedMask, hdefault]
    rfl
  · rw [kindWord_and_fixedMask, hdefault]
    rfl

end Sys2Proof.Machine
end

section
/-! Results and thresholds (40_codec R69, R70, R73): the decoded value in numbers, from which the signed quotient and the
round trips follow. -/

namespace Sys2Proof.Machine

/-! ## The meanings -/

theorem exec_decodeResult (k : Nat) (raw : Word) (s : State) :
    exec (.decodeResult k raw) s = .next (s.conclude (decodeResult k raw)) := rfl

theorem exec_decodeResult_of_le {k : Nat} (hk : k ≤ 15) (raw : Word) (s : State) :
    exec (.decodeResult k raw) s = .next (s.ended .ok (some (decodeWord k raw))) := by
  rw [exec_decodeResult, decodeResult_ok k raw hk, State.conclude_ok]

theorem exec_encodeThreshold (k : Nat) (t : Word) (s : State) :
    exec (.encodeThreshold k t) s = .next (s.conclude (encodeThreshold k t)) := rfl

theorem thresholdFits_iff (k : Nat) (t : Word) :
    thresholdFits k t = true ↔ -(2 ^ (15 - k) : Int) ≤ t.toInt ∧ t.toInt ≤ (2 ^ (15 - k) : Int) - 1 := by
  simp [thresholdFits]

theorem exec_encodeThreshold_of_fits {k : Nat} {t : Word} (hk : k ≤ 15) (h : thresholdFits k t = true) (s : State) :
    exec (.encodeThreshold k t) s = .next (s.ended .ok (some (t <<< k))) := by
  rw [exec_encodeThreshold, encodeThreshold_ok k t hk h, State.conclude_ok]

/-- A threshold that was encoded fits and was shifted. -/
theorem encodeThreshold_eq_ok {k : Nat} {t y : Word} (h : encodeThreshold k t = .ok y) :
    k ≤ 15 ∧ thresholdFits k t = true ∧ y = t <<< k := by
  unfold encodeThreshold at h
  split at h
  · cases h
  · split at h
    · cases h
      exact ⟨by omega, ‹_›, rfl⟩
    · cases h

/-! ## The decoded value in numbers (40_codec R69) -/

theorem decodeWord_zero (raw : Word) : decodeWord 0 raw = raw := rfl

/-- The formula of 40_codec R69 by arithmetic: the shifted value is the quotient. -/
theorem decodeWord_eq_ofNat {k : Nat} (hk : 1 ≤ k) (raw : Word) : decodeWord k raw =
    if raw.toNat / 2 ^ k > 0x07FF then BitVec.ofNat 16 ((raw.toNat / 2 ^ k) ||| 0xF000)
    else BitVec.ofNat 16 (raw.toNat / 2 ^ k) := by
  have hnat : (raw >>> k).toNat = raw.toNat / 2 ^ k := by rw [BitVec.toNat_ushiftRight, Nat.shiftRight_eq_div_pow]
  have hvalue : raw >>> k = BitVec.ofNat 16 (raw.toNat / 2 ^ k) := by rw [← hnat, BitVec.ofNat_toNat, BitVec.setWidth_eq]
  have hgt : raw >>> k > 0x07FF#16 ↔ raw.toNat / 2 ^ k > 0x07FF := by rw [← hnat]; rfl
  rw [decodeWord, if_neg (by omega), BitVec.ofNat_or, ← hvalue]
  simp only [hgt]

/-- ORing 0xF000 to a 16-bit value keeps its low twelve bits and sets the four above. -/
theorem or_0xF000_eq_add {v : Nat} (h : v < 2 ^ 16) : v ||| 0xF000 = v % 2 ^ 12 + 0xF000 := by
  have hhigh : ∀ a < 16, a ||| 15 = 15 := by decide
  have hmod : (v ||| 0xF000) % 2 ^ 12 = v % 2 ^ 12 := by rw [Nat.or_mod_two_pow]; exact Nat.or_zero _
  have hdiv : (v ||| 0xF000) / 2 ^ 12 = 15 := by rw [Nat.or_div_two_pow]; exact hhigh _ (by omega)
  omega

/-- The decoded value as a signed number: the quotient, or its low twelve bits as a negative number (40_codec R69). -/
theorem decodeWord_toInt {k : Nat} (hk : 1 ≤ k) (raw : Word) : (decodeWord k raw).toInt =
    if raw.toNat / 2 ^ k > 0x07FF then ((raw.toNat / 2 ^ k % 2 ^ 12 : Nat) : Int) - 2 ^ 12
    else ((raw.toNat / 2 ^ k : Nat) : Int) := by
  have hlt : raw.toNat / 2 ^ k < 2 ^ 16 := (Nat.div_le_self _ _).trans_lt raw.isLt
  rw [decodeWord_eq_ofNat hk, or_0xF000_eq_add hlt]
  generalize raw.toNat / 2 ^ k = v at hlt
  split <;> simp only [BitVec.toInt_eq_toNat_cond, BitVec.toNat_ofNat] <;> omega

/-- With the `LowRes` shift, the floor of the signed raw value over 16 (40_codec R73). -/
theorem decodeWord_four_toInt (raw : Word) : (decodeWord 4 raw).toInt = raw.toInt / 16 := by
  have hlt := raw.isLt
  rw [decodeWord_toInt (by decide), BitVec.toInt_eq_toNat_cond]
  omega

/-- With the `LowRes` shift, the signed value of the top twelve bits (40_codec R73). -/
theorem decodeWord_four_eq_signExtend (raw : Word) : decodeWord 4 raw = (raw.extractLsb' 4 12).signExtend 16 := by
  have hlt := raw.isLt
  rw [← BitVec.toInt_inj, decodeWord_four_toInt, BitVec.toInt_signExtend_of_le (by decide),
    BitVec.toInt_eq_toNat_cond, BitVec.toInt_eq_toNat_cond, BitVec.extractLsb'_toNat, Nat.shiftRight_eq_div_pow]
  omega

/-! ## Round trips (40_codec R73) -/

/-- With the `LowRes` shift, decoding divides by the 16 that encoding multiplied by. -/
theorem decodeWord_four_shiftLeft {t : Word} (h : thresholdFits 4 t = true) : decodeWord 4 (t <<< 4) = t := by
  rw [← BitVec.toInt_inj, decodeWord_four_toInt, toInt_shiftLeft_of_fits 4 t (by decide) h]
  omega

theorem thresholdFits_decodeWord_four (raw : Word) : thresholdFits 4 (decodeWord 4 raw) = true := by
  have hlo := raw.le_toInt
  have hhi := raw.toInt_lt
  rw [thresholdFits_iff, decodeWord_four_toInt]
  omega

/-- With the `LowRes` shift, encoding a decoded value clears the four bits that the division dropped. -/
theorem decodeWord_four_shiftLeft_four (raw : Word) : decodeWord 4 raw <<< 4 = raw &&& 0xFFF0 := by
  have hclear : raw &&& (0xFFF0 : Word) = raw >>> 4 <<< 4 := by
    rw [BitVec.shiftLeft_ushiftRight]
    rfl
  rw [← BitVec.toInt_inj, toInt_shiftLeft_of_fits 4 _ (by decide) (thresholdFits_decodeWord_four raw),
    decodeWord_four_toInt, hclear, BitVec.toInt_eq_toNat_cond, BitVec.toInt_eq_toNat_cond,
    BitVec.toNat_shiftLeft, BitVec.toNat_ushiftRight]
  have hlt := raw.isLt
  simp only [Nat.shiftLeft_eq, Nat.shiftRight_eq_div_pow]
  omega

/-- With shift 3 the sign extension sets the one bit that a negative threshold lost. -/
theorem decodeWord_three_shiftLeft {t : Word} (hlo : -4096 ≤ t.toInt) (hneg : t.toInt < 0) :
    decodeWord 3 (t <<< 3) = t := by
  have hfits : thresholdFits 3 t = true := (thresholdFits_iff 3 t).2 (by omega)
  have hraw := toInt_shiftLeft_of_fits 3 t (by decide) hfits
  have hlt := (t <<< 3).isLt
  rw [← BitVec.toInt_inj, decodeWord_toInt (by decide)]
  rw [BitVec.toInt_eq_toNat_cond (t <<< 3)] at hraw
  omega

/-- A threshold that does not come back is a counterexample to the round trip from every state. -/
theorem roundTrip_fails {k : Nat} {t : Word} (hk : k ≤ 15) (hfits : thresholdFits k t = true)
    (hne : decodeWord k (t <<< k) ≠ t) (s : State) : ∃ (u : State) (y : Word),
    exec (.encodeThreshold k t) s = .next u ∧ u.h.result = some y ∧
      exec (.decodeResult k y) u ≠ .next (u.ended .ok (some t)) := by
  refine ⟨_, _, exec_encodeThreshold_of_fits hk hfits s, rfl, ?_⟩
  rw [exec_decodeResult_of_le hk]
  intro h
  injection h with h
  exact hne (Option.some.inj (congrArg (fun u : State => u.h.result) h))

/-! ## The statements of 40_codec R69, R70 and R73 -/

/-- Settles O15: the formula by arithmetic; a shift of 5 or more leaves at most eleven bits. -/
theorem decodeResultFollowsTheFormula : Obligations.DecodeResultFollowsTheFormula := by
  refine ⟨rowA_of_decodeFields fun _ _ _ _ => rfl, fun s k raw hk => ?_,
    fun s raw => exec_decodeResult_of_le (by decide) raw s, fun s k raw hpos hk => ?_, fun raw k hk _ => ?_⟩
  · rw [exec_decodeResult, decodeResult, if_pos hk, State.conclude_error]
  · rw [exec_decodeResult_of_le hk, decodeWord_eq_ofNat hpos]
  · have hlt := raw.isLt
    calc raw.toNat / 2 ^ k ≤ raw.toNat / 2 ^ 5 := Nat.div_le_div_left (Nat.pow_le_pow_right (by decide) hk) (by decide)
      _ ≤ 0x07FF := by omega

/-- Settles O16: for the `LowRes` shift the decoded value is the quotient of the signed raw value. -/
theorem decodeResultIsSignedQuotient : Obligations.DecodeResultIsSignedQuotient := by
  intro s t u raw y z ht hy hu hz
  rw [exec_decodeResult_of_le (by decide)] at ht hu
  cases ht
  cases hu
  obtain rfl : decodeWord 4 raw = y := Option.some.inj hy
  obtain rfl : raw = z := Option.some.inj hz
  have hlo := raw.le_toInt
  have hhi := raw.toInt_lt
  have hquotient := decodeWord_four_toInt raw
  exact ⟨decodeWord_four_eq_signExtend raw, hquotient, by omega, by omega, rfl⟩

/-- Settles O17: a threshold that fits is shifted without loss, and any other is refused. -/
theorem encodeThresholdScalesExactly : Obligations.EncodeThresholdScalesExactly := by
  refine ⟨rowA_of_decodeFields fun _ _ _ _ => rfl, fun s k t hk => ?_, fun s k t hk hout => ?_,
    fun s k t hk hlo hhi => ?_⟩
  · rw [exec_encodeThreshold, encodeThreshold, if_pos hk, State.conclude_error]
  · have hfits : thresholdFits k t = false := by
      rw [← Bool.not_eq_true, thresholdFits_iff]
      omega
    rw [exec_encodeThreshold, encodeThreshold_error k t hk hfits, State.conclude_error]
  · have hfits := (thresholdFits_iff k t).2 ⟨hlo, hhi⟩
    exact ⟨t <<< k, exec_encodeThreshold_of_fits hk hfits s, toInt_shiftLeft_of_fits k t hk hfits, rfl⟩

/-- Settles O18. The round trip fails at -16384 for shift 1 and at -8192 for shift 2, the least thresholds that fit, and for
shift 3 at 2048, the least that sign extension takes for negative. -/
theorem thresholdRoundTrip : Obligations.ThresholdRoundTrip := by
  refine ⟨fun s u k t y hk hu hy => ?_, fun s u raw y hu hy => ?_, fun s k hpos hk => ?_, fun s t hlo hneg => ?_⟩
  · rw [exec_encodeThreshold] at hu
    cases hu
    obtain ⟨hk15, hfits, rfl⟩ := encodeThreshold_eq_ok ((conclude_result_eq_some_iff s _ y).1 hy)
    rw [exec_decodeResult_of_le hk15]
    rcases hk with rfl | rfl
    · rw [BitVec.shiftLeft_zero, decodeWord_zero]
    · rw [decodeWord_four_shiftLeft hfits]
  · rw [exec_decodeResult_of_le (by decide)] at hu
    cases hu
    obtain rfl : decodeWord 4 raw = y := Option.some.inj hy
    rw [exec_encodeThreshold_of_fits (by decide) (thresholdFits_decodeWord_four raw), decodeWord_four_shiftLeft_four]
  · obtain ⟨t, hneg, hfits, hne⟩ : ∃ t : Word, (k ≤ 2 → t.toInt < 0) ∧ thresholdFits k t = true ∧
        decodeWord k (t <<< k) ≠ t := by
      obtain rfl | rfl | rfl : k = 1 ∨ k = 2 ∨ k = 3 := by omega
      · exact ⟨BitVec.ofInt 16 (-16384), by decide, by decide, by decide⟩
      · exact ⟨BitVec.ofInt 16 (-8192), by decide, by decide, by decide⟩
      · exact ⟨BitVec.ofInt 16 2048, by decide, by decide, by decide⟩
    obtain ⟨u, y, hu, hy, hfails⟩ := roundTrip_fails (by omega) hfits hne s
    exact ⟨u, t, y, hneg, hu, hy, hfails⟩
  · have hfits : thresholdFits 3 t = true := (thresholdFits_iff 3 t).2 (by omega)
    refine ⟨_, _, exec_encodeThreshold_of_fits (by decide) hfits s, rfl, ?_⟩
    rw [exec_decodeResult_of_le (by decide), decodeWord_three_shiftLeft hlo hneg]

end Sys2Proof.Machine
end

section
/-! What an operation leaves as it is (40_codec R71, 42_protocol R84 to R88, R96, R98): a codec operation concludes with an
answer that the handle has no part in, and any other operation leaves what its path leaves. -/

namespace Sys2Proof.Machine

/-! ## What the codec reads of the parameters (40_codec R71) -/

/-- Resolving a selector reads the tables and `EXT_DIFF_PAIRS` alone. -/
theorem resolveInput_congr {P P' : Params} (hT : P.tables = P'.tables) (hext : P.extDiffPairs = P'.extDiffPairs)
    (sel : Selector) : resolveInput P sel = resolveInput P' sel := by
  cases sel with
  | se ch => exact congrArg (packInputSe · ch) hT
  | diff p => simp only [resolveInput, packInputDiff, hT, hext]

theorem buildConfig_congr {P P' : Params} (hT : P.tables = P'.tables) (hext : P.extDiffPairs = P'.extDiffPairs)
    (b : FixedBits) (g : Nat) (sel : Selector) (r : Nat) : buildConfig b P g sel r = buildConfig b P' g sel r := by
  simp only [buildConfig, resolveInput_congr hT hext, hT]

/-- From two states with the same tables and `EXT_DIFF_PAIRS`, a codec operation concludes with the same answer. -/
theorem exec_codec_concludes {i : Instr} (hi : i.isCodec = true) {s s' : State}
    (hT : s.params.tables = s'.params.tables) (hext : s.params.extDiffPairs = s'.params.extDiffPairs) :
    ∃ r, exec i s = .next (s.conclude r) ∧ exec i s' = .next (s'.conclude r) := by
  suffices ∃ r r', exec i s = .next (s.conclude r) ∧ exec i s' = .next (s'.conclude r') ∧ r = r' by
    obtain ⟨r, _, hs, hs', rfl⟩ := this
    exact ⟨r, hs, hs'⟩
  cases i with
  | packGain | packInputSe | packRate => exact ⟨_, _, rfl, rfl, by rw [hT]⟩
  | packInputDiff p => exact ⟨_, _, rfl, rfl, resolveInput_congr hT hext (.diff p)⟩
  | buildReadConfig g sel r =>
    exact ⟨_, _, exec_buildReadConfig g sel r s, exec_buildReadConfig g sel r s',
      by rw [hT, buildConfig_congr hT hext]⟩
  | buildComparatorConfig g sel r =>
    exact ⟨_, _, exec_buildComparatorConfig g sel r s, exec_buildComparatorConfig g sel r s',
      by rw [hT, buildConfig_congr hT hext]⟩
  | decodeResult | encodeThreshold => exact ⟨_, _, rfl, rfl, rfl⟩
  | samplesPerSecond | bitShift | rateRegisterBits | conversionDelay | setGain | getGain | setRate | getRate | getAddress
  | readSe | readDiff | startComparator | getLastConversion => cases hi

/-! ## What a sequenced operation leaves (42_protocol R96, R98) -/

/-- An operation that went over the bus, or was refused before: its handle's log gained events and its ports were written,
and no time was taken back. -/
structure Sequenced (s t : State) : Prop where
  handle : ∃ evs st y, t.h = Machine.ended (s.h.logged evs) st y
  elapsed : s.elapsed ≤ t.elapsed

theorem convertAndRead_sequenced (s : State) : Sequenced s (convertAndRead s) := by
  obtain ⟨st, y, he, -⟩ := convertAndRead_form s
  rw [he]
  exact ⟨⟨_, _, _, rfl⟩, by dsimp only; omega⟩

theorem readPath_sequenced (mux : Word) (s : State) : Sequenced s (readPath mux s) := by
  obtain ⟨cfg, ⟨st, y, -, he, -⟩ | ⟨-, he⟩⟩ := readPath_form mux s
  · rw [he]
    exact ⟨⟨_, _, _, rfl⟩, by dsimp only; omega⟩
  · rw [he]
    exact ⟨⟨_, _, _, rfl⟩, le_rfl⟩

theorem armPath_sequenced (mux hi : Word) (s : State) : Sequenced s (armPath mux hi s) := by
  obtain ⟨cfg, ⟨ok, -, -, he⟩ | ⟨-, he⟩⟩ := armPath_form mux hi s
  · rw [he]
    exact ⟨⟨_, _, _, rfl⟩, le_rfl⟩
  · rw [he]
    exact ⟨⟨_, _, _, rfl⟩, le_rfl⟩

theorem exec_sequenced {i : Instr} {s t : State} (hi : i.isSequenced = true) (h : exec i s = .next t) :
    Sequenced s t := by
  rcases exec_cases i s t h with ⟨st, y, rfl, -⟩ | ⟨g, rfl, -⟩ | ⟨r, rfl, -⟩ | ⟨ch, mux, -, -, rfl⟩ |
    ⟨p, mux, -, -, rfl⟩ | ⟨sel, thr, mux, word, -, -, -, rfl⟩ | ⟨-, rfl⟩
  · exact ⟨⟨[], st, y, by rw [Handle.logged_nil]; rfl⟩, le_rfl⟩
  · cases hi
  · cases hi
  · exact readPath_sequenced mux s
  · exact readPath_sequenced mux s
  · exact armPath_sequenced mux word s
  · exact convertAndRead_sequenced s

/-- An operation that is not sequenced writes the ports, or first a field that its setter names. -/
theorem exec_not_sequenced {i : Instr} {s t : State} (hi : i.isSequenced = false) (h : exec i s = .next t) :
    (∃ st y, t = s.ended st y) ∨ (∃ g, i = .setGain g ∧ t = (s.setGain g).ended .ok none) ∨
      ∃ r, i = .setRate r ∧ t = (s.setRate r).ended .ok none := by
  rcases exec_cases i s t h with ⟨st, y, rfl, -⟩ | ⟨g, rfl, -, rfl⟩ | ⟨r, rfl, -, rfl⟩ | ⟨ch, mux, rfl, -⟩ |
    ⟨p, mux, rfl, -⟩ | ⟨sel, thr, mux, word, rfl, -⟩ | ⟨rfl, -⟩
  · exact .inl ⟨st, y, rfl⟩
  · exact .inr (.inl ⟨g, rfl, rfl⟩)
  · exact .inr (.inr ⟨r, rfl, rfl⟩)
  all_goals cases hi

/-! ## The statements of 40_codec R71 and 42_protocol R96 -/

/-- Settles O37: the answer is the same from both states, and concluding writes the ports alone. -/
theorem codecIsPure : Obligations.CodecIsPure := by
  intro i s s' hi hT hext
  obtain ⟨r, hs, hs'⟩ := exec_codec_concludes hi hT hext
  rw [hs, hs']
  cases r with
  | ok v => exact ⟨.ok, some v, rfl, rfl⟩
  | error e => exact ⟨e, none, rfl, rfl⟩

/-- Settles O43: an operation that is not sequenced writes its handle alone, and a sequenced one is completed with its log
extended. -/
theorem operationFrames : Obligations.OperationFrames := by
  refine ⟨fun i s t hi h => ?_, fun i s t hi h => ?_⟩
  · rcases exec_not_sequenced hi h with ⟨st, y, rfl⟩ | ⟨g, rfl, rfl⟩ | ⟨r, rfl, rfl⟩
    · exact ⟨rfl, fun _ => rfl, fun _ _ => rfl, fun _ _ => rfl⟩
    · exact ⟨rfl, nofun, fun _ _ => rfl, nofun⟩
    · exact ⟨rfl, nofun, nofun, fun _ _ => rfl⟩
  · have hdone := exec_completed i s t h
    obtain ⟨⟨evs, st, y, hhandle⟩, helapsed⟩ := exec_sequenced hi h
    exact ⟨hdone.params, hdone.requests, hdone.peers, ⟨evs, by rw [hhandle]; rfl⟩, helapsed⟩

end Sys2Proof.Machine
end

section
/-! The lookups of the variant tables (41_variant_tables R75 to R82): in a legal state the handle's rate index has an entry
in each of its variant's tables, the lookups answer these entries, and the delay is a least quotient. -/

namespace Sys2Proof.Machine

/-! ## The rows without operands -/

theorem row0_of_decodeFields {op : Byte} {i : Instr}
    (h : ∀ (a b c : Byte) (d : Word),
      decodeFields op.toNat a.toNat b.toNat c.toNat d = whenZero [a.toNat, b.toNat, c.toNat] i) : Row0 op i := by
  intro s a b c d hs
  simp [step_present_row hs (h a b c d), BitVec.toNat_eq]

/-! ## The meanings -/

theorem exec_samplesPerSecond (s : State) : exec .samplesPerSecond s =
    .next (s.ended .ok (some (BitVec.ofNat 16 (sps s.params.tables s.h.variant s.h.rate)))) := rfl

theorem exec_bitShift (s : State) :
    exec .bitShift s = .next (s.ended .ok (some (BitVec.ofNat 16 (shiftOf s.h.variant)))) := rfl

theorem exec_rateRegisterBits (s : State) : exec .rateRegisterBits s =
    .next (s.ended .ok (some (rateField s.params.tables s.h.variant s.h.rate))) := rfl

theorem exec_conversionDelay (s : State) :
    exec .conversionDelay s = .next (s.ended .ok (some (BitVec.ofNat 16 s.delay))) := rfl

/-! ## Entries of the rate tables -/

theorem ofNat_shiftOf (v : Variant) : BitVec.ofNat 16 (shiftOf v) = if v = .lowRes then 4#16 else 0#16 := by
  cases v <;> rfl

theorem rateField_of_get {T : CodecTables} {v : Variant} {i : Nat} {code : BitVec 3} (h : (rateCodes T v)[i]? = some code) :
    rateField T v i = positioned code 5 := by
  rw [rateField, rateCode, codeAt_of_get _ _ _ h]

/-- The variant byte that names a variant (30_encoding R57). -/
theorem variantOf_byte (v : Variant) : variantOf (if v = .lowRes then 0 else 1) = some v := by
  cases v <;> rfl

/-- A legal rate index has a rate and a code (30_encoding R46, R47). -/
theorem rateTables_get {T : CodecTables} {v : Variant} {i : Nat} (hT : tablesWf T) (hi : i < rateCount v) :
    ∃ r code, (spsList T v)[i]? = some r ∧ (rateCodes T v)[i]? = some code := by
  obtain ⟨hcodes, -, hrates, -⟩ := tablesWf_ratesWf T v hT
  exact ⟨_, _, List.getElem?_eq_getElem (hrates ▸ hi), List.getElem?_eq_getElem (hcodes ▸ hi)⟩

/-- The lowest rate of either variant is 8 and the highest 3300. -/
theorem sps_bounds {T : CodecTables} {v : Variant} {i r : Nat} (hT : tablesWf T) (h : (spsList T v)[i]? = some r) :
    8 ≤ r ∧ r ≤ 3300 := by
  obtain ⟨-, -, -, -, -, -, -, hrange⟩ := tablesWf_ratesWf T v hT
  obtain ⟨hlo, hhi⟩ := hrange r (List.mem_of_getElem? h)
  cases v with
  | lowRes => exact ⟨le_trans (by decide) hlo, hhi⟩
  | highRes => exact ⟨hlo, le_trans hhi (by decide)⟩

/-- No default `LowRes` code is 111 (41_variant_tables R79; log 33). -/
theorem rateCodes_default_lowRes_ne : ∀ code ∈ rateCodes defaultTables .lowRes, code ≠ 0b111 := by decide

/-- What a legal state says of the rate: legal tables, and a rate index of the handle's variant (10_state R20). -/
theorem inv_rate {s : State} (hs : s.Inv) : tablesWf s.params.tables ∧ s.h.rate < rateCount s.h.variant := by
  obtain ⟨⟨hT, -⟩, hhandles, -⟩ := hs
  obtain ⟨-, -, hrate, -⟩ := hhandles s.h List.mem_cons_self
  exact ⟨hT, hrate⟩

/-! ## The conversion delay (41_variant_tables R80, R82) -/

/-- `ceil_div` is the least quotient that covers the dividend (00_scope R10). -/
theorem ceilDiv_le_iff {a b : Nat} (hb : 0 < b) (q : Nat) : ceilDiv a b ≤ q ↔ a ≤ q * b := by
  rw [ceilDiv, ← Nat.ceilDiv_eq_add_pred_div, ceilDiv_le_iff_le_mul hb, mul_comm]

theorem conversionDelay_of_get {T : CodecTables} {v : Variant} {i r : Nat} (h : (spsList T v)[i]? = some r) :
    conversionDelay T v i = ceilDiv 1000 r + 1 := by
  rw [conversionDelay, sps_of_get T v i r h]

/-- The spec's table of delays (41_variant_tables R82). -/
theorem conversionDelay_default (v : Variant) : ∀ i < rateCount v, some (conversionDelay defaultTables v i) =
    (if v = .lowRes then [9, 5, 4, 3, 2, 2, 2] else [126, 64, 33, 17, 9, 5, 4, 3])[i]? := by
  cases v <;> decide

/-! ## The statements of 41_variant_tables -/

/-- Settles O19: a legal rate index has an entry in each of the variant's tables, which the lookups and `PACK_RATE` read. -/
theorem lookupsReadTheTables : Obligations.LookupsReadTheTables := by
  refine ⟨row0_of_decodeFields fun _ _ _ _ => rfl, row0_of_decodeFields fun _ _ _ _ => rfl,
    row0_of_decodeFields fun _ _ _ _ => rfl, fun s r hr => ?_, fun s => ?_, fun s code hcode => ?_, fun s hs => ?_,
    fun s hs => ?_⟩
  · rw [exec_samplesPerSecond, sps_of_get _ _ _ r hr]
  · rw [exec_bitShift, ofNat_shiftOf]
  · rw [exec_rateRegisterBits, rateField_of_get hcode, positioned]
  · obtain ⟨hT, hrate⟩ := inv_rate hs
    obtain ⟨-, code, -, hcode⟩ := rateTables_get hT hrate
    rw [exec_rateRegisterBits, rateField_of_get hcode, exec_packRate, packRate_eq_packed hT (variantOf_byte _), hcode]
    rfl
  · obtain ⟨hT, hrate⟩ := inv_rate hs
    obtain ⟨r, code, hr, hcode⟩ := rateTables_get hT hrate
    obtain ⟨hlo, hhi⟩ := sps_bounds hT hr
    refine ⟨r, code, hr, hlo, hhi, hcode, fun hdefault hlow => ?_⟩
    rw [hdefault, hlow] at hcode
    exact rateCodes_default_lowRes_ne code (List.mem_of_getElem? hcode)

/-- Settles O20: the quotient is the least that covers 1000, so the rate's bounds bound it. -/
theorem conversionDelayIsCeilingPlusOne : Obligations.ConversionDelayIsCeilingPlusOne := by
  refine ⟨row0_of_decodeFields fun _ _ _ _ => rfl, fun s r hs hr => ?_⟩
  obtain ⟨hT, hrate⟩ := inv_rate hs
  obtain ⟨hlo, hhi⟩ := sps_bounds hT hr
  have hleast := ceilDiv_le_iff (a := 1000) (b := r) (by omega)
  have hdelay : s.delay = ceilDiv 1000 r + 1 := conversionDelay_of_get hr
  have hcovers : 1000 ≤ ceilDiv 1000 r * r := (hleast _).1 le_rfl
  have hpos : 0 < ceilDiv 1000 r := Nat.pos_of_mul_pos_right (by omega : 0 < ceilDiv 1000 r * r)
  have hle : ceilDiv 1000 r ≤ 125 := (hleast 125).2 (by omega)
  refine ⟨ceilDiv 1000 r, ?_, hdelay, hcovers, fun q' => (hleast q').2, by omega, by omega, fun hdefault => ?_⟩
  · rw [exec_conversionDelay, hdelay]
  · rw [← conversionDelay_default s.h.variant s.h.rate hrate, ← hdefault, conversionDelay_of_get hr]

end Sys2Proof.Machine
end

section
/-! The step that runs an operation on the handle its word names, and the handle accessors (42_protocol R83 to R88). -/

namespace Sys2Proof.Machine

/-! ## Steps -/

theorem step_operation {s : State} {k : Nat} {cmd : CmdWord} {d : Word} {rest : List Request}
    (h : s.requests = .operation k cmd d :: rest) : step s = serve k rest (runWord cmd d) s := by
  rw [step, stepState, h]

/-- A run goes on from where its first step led. -/
theorem run_of_step {s t : State} (h : step s = .next t) (k : Nat) :
    Host.Core.run core (k + 1) s = Host.Core.run core k t := by
  have hcore : core.step s = .next t := h
  simp only [Host.Core.run, hcore]

/-- Where handle 0 has ended an operation it may start the next: it is Idle, and the other handles on its bus still are. -/
theorem ready_of_ended {s : State} (hs : s.ready) (t : State) (hbus : t.h.transport = s.h.transport) (hpeers : t.peers = s.peers)
    (st : Status) (y : Option Word) : (t.ended st y).ready := by
  intro other hmem htransport
  rcases List.mem_cons.1 hmem with rfl | hpeer
  · rfl
  · exact hs other (List.mem_cons_of_mem _ (hpeers ▸ hpeer)) (htransport.trans hbus)

/-! ## The accessors -/

theorem exec_setGain_of_le {g : Nat} (hg : g ≤ 5) (s : State) :
    exec (.setGain g) s = .next { s with h := Machine.ended { s.h with gain := g } .ok none } :=
  congrArg Host.Outcome.next (if_neg (Nat.not_lt.2 hg))

theorem exec_setGain_of_gt {g : Nat} (hg : g > 5) (s : State) :
    exec (.setGain g) s = .next (s.ended .invalidOperand none) :=
  congrArg Host.Outcome.next (if_pos hg)

theorem exec_setRate_of_lt {i : Nat} {s : State} (hi : i < rateCount s.h.variant) :
    exec (.setRate i) s = .next { s with h := Machine.ended { s.h with rate := i } .ok none } :=
  congrArg Host.Outcome.next (if_neg (Nat.not_le.2 hi))

theorem exec_setRate_of_ge {i : Nat} {s : State} (hi : i ≥ rateCount s.h.variant) :
    exec (.setRate i) s = .next (s.ended .invalidOperand none) :=
  congrArg Host.Outcome.next (if_pos hi)

theorem exec_getGain (s : State) : exec .getGain s = .next (s.ended .ok (some (BitVec.ofNat 16 s.h.gain))) := rfl

theorem exec_getRate (s : State) : exec .getRate s = .next (s.ended .ok (some (BitVec.ofNat 16 s.h.rate))) := rfl

theorem exec_getAddress (s : State) : exec .getAddress s = .next (s.ended .ok (some (s.h.addr.setWidth 16))) := rfl

/-- The number of rates of a variant, as 42_protocol R86 writes it. -/
theorem rateCount_eq (v : Variant) : rateCount v = if v = .lowRes then 7 else 8 := by
  cases v <;> rfl

theorem row_setGain : RowA 0x20 (fun a _ => .setGain a.toNat) := rowA_of_decodeFields fun _ _ _ _ => rfl

theorem row_getGain : Row0 0x21 .getGain := row0_of_decodeFields fun _ _ _ _ => rfl

/-! ## The statements of 42_protocol R83 to R88 -/

/-- Settles O5: the request at the head is served where the bus of its handle is free. -/
theorem stepRunsTheDecodedOperation : Obligations.StepRunsTheDecodedOperation := by
  intro s k target cmd d rest hreq hk hfree
  have hstep : step s = onHandle k (runWord cmd d) { s with requests := rest } := by
    rw [step_operation hreq, serve_free k rest _ s target hk hfree]
  have hok : ∀ i, decode cmd d = .ok i → step s = onHandle k (exec i) { s with requests := rest } := fun i hi => by
    rw [hstep, funext (runWord_of_ok hi)]
  refine ⟨hok, fun e he => ?_, fun hk0 i hi => ?_⟩
  · rw [hstep, funext (runWord_of_error he)]
  · rw [hok i hi, hk0, onHandle_zero]

/-- Settles O21: a gain index is checked against 5. -/
theorem setGainStoresTheIndex : Obligations.SetGainStoresTheIndex :=
  ⟨row_setGain, fun s _ hg => exec_setGain_of_le hg s, fun s _ hg => exec_setGain_of_gt hg s⟩

/-- Settles O22: a rate index is checked against the number of rates of the variant. -/
theorem setRateStoresTheIndex : Obligations.SetRateStoresTheIndex := by
  simp only [Obligations.SetRateStoresTheIndex, ← rateCount_eq]
  exact ⟨rowA_of_decodeFields fun _ _ _ _ => rfl, fun _ _ hi => exec_setRate_of_lt hi, fun _ _ hi => exec_setRate_of_ge hi⟩

/-- Settles O23: each getter answers its field; a legal handle's address is strapped, and creation has set the gain and the
rate. -/
theorem gettersReturnTheField : Obligations.GettersReturnTheField := by
  refine ⟨row_getGain, row0_of_decodeFields fun _ _ _ _ => rfl, row0_of_decodeFields fun _ _ _ _ => rfl, exec_getGain,
    exec_getRate, exec_getAddress, fun s hs => ?_, exec_getGain _, exec_getRate _⟩
  obtain ⟨-, hhandles, -⟩ := hs
  obtain ⟨haddr, -⟩ := hhandles s.h List.mem_cons_self
  exact ⟨s.h.addr, haddr, by rw [exec_getAddress, BitVec.ofNat_toNat]⟩

/-- Settles O24: the first step runs `SET_GAIN`, and its end leaves handle 0 ready for `GET_GAIN`. -/
theorem setGainThenGetGain : Obligations.SetGainThenGetGain := by
  intro s g d d' hs hg
  have hset : step ((s.present 0x21 0 0 0 d').present 0x20 g 0 0 d) =
      .next (((s.setGain g.toNat).ended .ok none).present 0x21 0 0 0 d') := by
    rw [row_setGain (s.present 0x21 0 0 0 d') g 0 0 d hs, if_pos ⟨rfl, rfl⟩, exec_setGain_of_le hg]
    rfl
  have hget : step (((s.setGain g.toNat).ended .ok none).present 0x21 0 0 0 d') =
      .next ((s.setGain g.toNat).ended .ok (some (g.setWidth 16))) := by
    rw [row_getGain _ 0 0 0 d' (ready_of_ended hs (s.setGain g.toNat) rfl rfl .ok none), if_pos ⟨rfl, rfl, rfl⟩,
      exec_getGain, ← BitVec.ofNat_toNat]
    rfl
  exact (run_of_step hset 1).trans (run_of_step hget 0)

end Sys2Proof.Machine
end

section
/-! The sequenced operations on a given answer of the Environment (42_protocol R89 to R93): each bus path as one state, with
the words it writes. -/

namespace Sys2Proof.Machine

/-! ## One write -/

theorem busWrite_of_ok {s : State} (h : s.writeAnswer.ok = true) (r : Reg) (v : Word) : s.busWrite r v = { s with
    h := s.h.logged [s.evW r v true]
    devRegs := s.devRegs.write (s.regKey r) v
    env := useWrite s.env } := by
  rw [State.busWrite, devAfterWrite_ok _ _ _ _ h, h]
  rfl

/-- The answer of a read does not depend on what was written before. -/
@[simp] theorem evR_busWrite (s : State) (r : Reg) (v : Word) : (s.busWrite r v).evR = s.evR := by
  simp [State.evR]

/-! ## The bus paths -/

/-- The tail with an answered read (42_protocol R89). -/
theorem convertAndRead_of_read_ok {s : State} (h : readOk s.readAnswer = true) : convertAndRead s = { s with
    h := Machine.ended (s.h.logged [.wait s.delay, s.evR]) .ok
      (some (decodeWord (shiftOf s.h.variant) s.readAnswer.value))
    env := useRead (useWait s.env)
    elapsed := s.elapsed + s.delay + s.waitExtra } := by
  simp only [convertAndRead_eq, h, if_true]

/-- A read path goes on with the tail from where its write has gone through (42_protocol R90, R91). -/
theorem readPath_of_write_ok {s : State} (h : s.writeAnswer.ok = true) (mux : Word) : readPath mux s =
    convertAndRead (s.busWrite .config (handleConfig s.params.tables.readFixed s.params.tables s.h mux)) := by
  rw [readPath_eq, busWrite_of_ok h]
  exact if_pos h

/-- The whole read path with both transactions answered. -/
theorem readPath_of_answered {s : State} (hw : s.writeAnswer.ok = true) (hr : readOk s.readAnswer = true)
    {pga dr : BitVec 3} (hcodes : handleCodes s pga dr) (mux : BitVec 3) : readPath (positioned mux 12) s = { s with
      h := Machine.ended
        (s.h.logged [s.evW .config (kindWord s.params.tables.readFixed mux pga dr) true, .wait s.delay, s.evR])
        .ok (some (decodeWord (shiftOf s.h.variant) s.readAnswer.value))
      devRegs := s.devRegs.write (s.regKey .config) (kindWord s.params.tables.readFixed mux pga dr)
      env := useRead (useWait (useWrite s.env))
      elapsed := s.elapsed + s.delay + s.waitExtra } := by
  rw [readPath_of_write_ok hw, handleConfig_eq _ s mux pga dr hcodes,
    convertAndRead_of_read_ok (by rwa [State.busWrite_readAnswer])]
  apply State.ext <;> simp [hw, State.evW]

/-- The comparator path from where its threshold write has gone through (42_protocol R92). -/
theorem armPath_of_write_ok {s : State} (h : s.writeAnswer.ok = true) {pga dr : BitVec 3} (hcodes : handleCodes s pga dr)
    (mux : BitVec 3) (hi : Word) :
    let comp := kindWord s.params.tables.compFixed mux pga dr
    let second := (s.busWrite .hiThresh hi).writeAnswer
    armPath (positioned mux 12) hi s = { s with
      h := Machine.ended (s.h.logged [s.evW .hiThresh hi true, s.evW .config comp second.ok])
        (if second.ok then .ok else .busWriteFailed) none
      devRegs := devAfterWrite (s.devRegs.write (s.regKey .hiThresh) hi) (s.regKey .config) comp second
      env := useWrite (useWrite s.env) } := by
  rw [armPath_eq, handleConfig_eq _ s mux pga dr hcodes]
  exact if_pos h

/-! ## Operands that are accepted -/

theorem exec_readOf (sel : Selector) (s : State) : exec (readOf sel) s =
    .next (match resolveInput s.params sel with
      | .ok mux => readPath mux s
      | .error e => s.raise e) := by
  cases sel <;> rfl

/-- An input that exists resolves to its code. -/
theorem resolveInput_of_code {P : Params} {sel : Selector} {mux : BitVec 3} (hT : tablesWf P.tables)
    (h : selCode P sel = some mux) : resolveInput P sel = .ok (positioned mux 12) := by
  rw [resolveInput_eq P sel hT, h]

theorem exec_readOf_of_code {s : State} {sel : Selector} {mux : BitVec 3} (hT : tablesWf s.params.tables)
    (h : selCode s.params sel = some mux) : exec (readOf sel) s = .next (readPath (positioned mux 12) s) := by
  rw [exec_readOf, resolveInput_of_code hT h]

/-- A word that is the threshold scaled by the shift is its encoding (40_codec R70). -/
theorem encodeThreshold_of_toInt {k : Nat} {t y : Word} (hk : k ≤ 15) (h : y.toInt = t.toInt * 2 ^ k) :
    encodeThreshold k t = .ok y := by
  have hpos : (0 : Int) < 2 ^ k := by positivity
  have hsplit : (2 : Int) ^ 15 = 2 ^ (15 - k) * 2 ^ k := by rw [← pow_add, Nat.sub_add_cancel hk]
  have hlo : -(2 ^ (15 - k) : Int) ≤ t.toInt := by
    refine le_of_mul_le_mul_right ?_ hpos
    rw [neg_mul, ← hsplit, ← h]
    exact y.le_toInt
  have hhi : t.toInt < 2 ^ (15 - k) := by
    refine lt_of_mul_lt_mul_right ?_ hpos.le
    rw [← hsplit, ← h]
    exact y.toInt_lt
  have hfits : thresholdFits k t = true := (thresholdFits_iff k t).2 ⟨hlo, by omega⟩
  rw [encodeThreshold_ok k t hk hfits, ← BitVec.toInt_inj.1 (h.trans (toInt_shiftLeft_of_fits k t hk hfits).symm)]

/-- `START_COMPARATOR` on an input that exists and a threshold that scales to a word runs the comparator path. -/
theorem exec_startComparator_of_operands {s : State} {sel : Selector} {mux : BitVec 3} {thr hi : Word}
    (hT : tablesWf s.params.tables) (hsel : selCode s.params sel = some mux)
    (hthr : hi.toInt = thr.toInt * 2 ^ shiftOf s.h.variant) :
    exec (.startComparator sel thr) s = .next (armPath (positioned mux 12) hi s) := by
  rw [exec_startComparator, resolveInput_of_code hT hsel]
  dsimp only
  rw [encodeThreshold_of_toInt (shiftOf_le _) hthr]

/-! ## The shift of a variant -/

/-- The shift of a variant, as 41_variant_tables R78 writes it. -/
theorem shiftOf_eq (v : Variant) : shiftOf v = if v = .lowRes then 4 else 0 := by
  cases v <;> rfl

theorem two_pow_shiftOf (v : Variant) : (2 : Int) ^ shiftOf v = if v = .lowRes then 16 else 1 := by
  cases v <;> rfl

/-! ## Built words -/

theorem conclude_buildConfig_of_codes {s : State} {sel : Selector} {mux pga dr : BitVec 3} (hT : tablesWf s.params.tables)
    (hsel : selCode s.params sel = some mux) (hcodes : handleCodes s pga dr) (b : FixedBits) :
    s.conclude (buildConfig b s.params s.h.gain sel dr.toNat) = s.ended .ok (some (kindWord b mux pga dr)) := by
  obtain ⟨hgain, -⟩ := hcodes
  have hdr := dr.isLt
  rw [conclude_buildConfig b s _ sel _ hT, hgain, hsel, BitVec.ofNat_toNat, BitVec.setWidth_eq]
  exact if_neg (by omega)

/-- A read path writes the read configuration and nothing else. -/
theorem readPath_log {s : State} {pga dr : BitVec 3} (hcodes : handleCodes s pga dr) (mux : BitVec 3) :
    ∃ rest, (readPath (positioned mux 12) s).log =
        s.log ++ s.evW .config (kindWord s.params.tables.readFixed mux pga dr) s.writeAnswer.ok :: rest ∧
      ∀ p, ∀ e ∈ rest, e.writesTo p = false := by
  cases hw : s.writeAnswer.ok with
  | true =>
    refine ⟨[.wait s.delay, s.evR], ?_, by simp [Event.writesTo, State.evR]⟩
    rw [readPath_of_write_ok hw, handleConfig_eq _ s mux pga dr hcodes, convertAndRead_eq]
    simp [hw, State.evW]
  | false =>
    refine ⟨[], ?_, by simp⟩
    rw [readPath_eq, handleConfig_eq _ s mux pga dr hcodes]
    simp [hw]

/-! ## The statements of 42_protocol R89 to R93 -/

/-- Settles O25: a channel that exists resolves to its code, and the read path runs with both transactions answered. -/
theorem readSeDeliversTheSample : Obligations.ReadSeDeliversTheSample := by
  refine ⟨rowA_of_decodeFields fun _ _ _ _ => rfl, fun s ch mux pga dr hmux hch hcodes hw hr => ?_⟩
  rw [exec_readSe, packInputSe_ok _ ch mux hch hmux, ← shiftOf_eq, ← readPath_of_answered hw hr hcodes]

/-- Settles O26: the same with a pair that exists. -/
theorem readDiffDeliversTheSample : Obligations.ReadDiffDeliversTheSample := by
  refine ⟨rowA_of_decodeFields fun _ _ _ _ => rfl, fun s p mux pga dr hmux hp hcodes hw hr => ?_⟩
  rw [exec_readDiff, packInputDiff_ok _ p mux hp hmux, ← shiftOf_eq, ← readPath_of_answered hw hr hcodes]

/-- Settles O27: the operands are accepted, and the comparator path runs with both writes answered. -/
theorem startComparatorArms : Obligations.StartComparatorArms := by
  refine ⟨rowA_of_decodeFields fun a b c d => ?_, fun s sel thr hi mux pga dr hT hsel hcodes hthr hw hw2 => ?_⟩
  · rw [← selectorOf_eq_selectorBits]
    rfl
  · rw [← two_pow_shiftOf] at hthr
    rw [exec_startComparator_of_operands hT hsel hthr, armPath_of_write_ok hw hcodes, devAfterWrite_ok _ _ _ _ hw2, hw2,
      if_pos rfl]

/-- Settles O28: the operation is the tail with an answered read. -/
theorem getLastConversionReadsWithoutWriting : Obligations.GetLastConversionReadsWithoutWriting := by
  refine ⟨row0_of_decodeFields fun _ _ _ _ => rfl, fun s hr => ?_⟩
  rw [exec_getLastConversion, convertAndRead_of_read_ok hr, shiftOf_eq]

/-- Settles O29: each path writes the word of its kind with the codes of the input, the gain and the rate, which is the word
its builder answers. -/
theorem sequencedWordsAreBuiltWords : Obligations.SequencedWordsAreBuiltWords := by
  intro s sel mux pga dr hT hsel hcodes
  have hbuilt := conclude_buildConfig_of_codes hT hsel hcodes
  refine ⟨kindWord s.params.tables.readFixed mux pga dr, kindWord s.params.tables.compFixed mux pga dr, ?_, ?_, ?_,
    fun thr hi hthr hw => ?_⟩
  · rw [exec_buildReadConfig, hbuilt]
  · rw [exec_buildComparatorConfig, hbuilt]
  · obtain ⟨rest, hlog, hrest⟩ := readPath_log hcodes mux
    exact ⟨_, _, rest, exec_readOf_of_code hT hsel, hlog, hrest⟩
  · refine ⟨_, (s.busWrite .hiThresh hi).writeAnswer.ok, exec_startComparator_of_operands hT hsel hthr, ?_⟩
    rw [armPath_of_write_ok hw hcodes]
    rfl

end Sys2Proof.Machine
end

section
/-! What an operation writes of the handle, of the bus log and of the device registers (42_protocol R90 to R98), each said
once for every operation and then read off. -/

namespace Sys2Proof.Machine

/-! ## The events of a handle -/

@[simp] theorem wait_failed (ms : Nat) : (Event.wait ms).failed = false := rfl
@[simp] theorem evR_failed (s : State) : s.evR.failed = !readOk s.readAnswer := rfl
@[simp] theorem evW_failed (s : State) (r : Reg) (v : Word) (ok : Bool) : (s.evW r v ok).failed = !ok := rfl

@[simp] theorem wait_isRead (ms : Nat) : (Event.wait ms).isRead = false := rfl
@[simp] theorem evR_isRead (s : State) : s.evR.isRead = true := rfl
@[simp] theorem evW_isRead (s : State) (r : Reg) (v : Word) (ok : Bool) : (s.evW r v ok).isRead = false := rfl

@[simp] theorem wait_writesTo (ms : Nat) (p : BitVec 2) : (Event.wait ms).writesTo p = false := rfl
@[simp] theorem evR_writesTo (s : State) (p : BitVec 2) : s.evR.writesTo p = false := rfl
@[simp] theorem evW_writesTo (s : State) (r : Reg) (v : Word) (ok : Bool) (p : BitVec 2) :
    (s.evW r v ok).writesTo p = (ptrOf s.params.tables r == p) := rfl

/-! ## Traffic (42_protocol R98) -/

/-- A transaction that failed is the status the operation ends with (42_protocol R94). -/
def FailureIsStatus (evs : List Event) (t : State) : Prop :=
  ∀ e ∈ evs, e.failed = true → t.h.status = some .busWriteFailed ∨ t.h.status = some .busReadFailed

/-- The bus log from `s` to `t` gained exactly these events, and one that failed is the status in `t`. -/
structure Issued (s : State) (evs : List Event) (t : State) : Prop where
  log : t.log = s.log ++ evs
  failure : FailureIsStatus evs t

/-- An operation that issued no transaction. -/
theorem issued_nil {s t : State} (h : t.log = s.log) : Issued s [] t :=
  ⟨by rw [h, List.append_nil], by simp [FailureIsStatus]⟩

theorem convertAndRead_issued (s : State) : Issued s [.wait s.delay, s.evR] (convertAndRead s) := by
  obtain ⟨st, y, he, ⟨rfl, hr, -⟩ | ⟨rfl, -, -⟩⟩ := convertAndRead_form s
  · rw [he]
    exact ⟨rfl, by simp [FailureIsStatus, hr]⟩
  · rw [he]
    exact ⟨rfl, fun _ _ _ => .inr rfl⟩

theorem readPath_issued (mux : Word) (s : State) : ∃ cfg evs, Issued s evs (readPath mux s) ∧
    (evs = [s.evW .config cfg false] ∨ evs = [s.evW .config cfg true, .wait s.delay, s.evR]) := by
  obtain ⟨cfg, ⟨st, y, -, he, ⟨rfl, hr, -⟩ | ⟨rfl, -, -⟩⟩ | ⟨-, he⟩⟩ := readPath_form mux s
  · rw [he]
    exact ⟨cfg, _, ⟨rfl, by simp [FailureIsStatus, hr]⟩, .inr rfl⟩
  · rw [he]
    exact ⟨cfg, _, ⟨rfl, fun _ _ _ => .inr rfl⟩, .inr rfl⟩
  · rw [he]
    exact ⟨cfg, _, ⟨rfl, fun _ _ _ => .inl rfl⟩, .inl rfl⟩

theorem armPath_issued (mux hi : Word) (s : State) : ∃ cfg ok evs, Issued s evs (armPath mux hi s) ∧
    (evs = [s.evW .hiThresh hi false] ∨ evs = [s.evW .hiThresh hi true, s.evW .config cfg ok]) := by
  obtain ⟨cfg, ⟨ok, -, -, he⟩ | ⟨-, he⟩⟩ := armPath_form mux hi s
  · rw [he]
    refine ⟨cfg, ok, _, ⟨rfl, ?_⟩, .inr rfl⟩
    cases ok with
    | true => simp [FailureIsStatus]
    | false => exact fun _ _ _ => .inl rfl
  · rw [he]
    exact ⟨cfg, false, _, ⟨rfl, fun _ _ _ => .inl rfl⟩, .inl rfl⟩

/-- Only `GET_LAST_CONVERSION` has no refusal, so any other operation may leave the log as it was. -/
theorem allowedTraffic_nil {i : Instr} (h : i ≠ .getLastConversion) (s : State) : allowedTraffic i s [] := by
  cases i with
  | readSe | readDiff | startComparator => exact .inl rfl
  | getLastConversion => exact absurd rfl h
  | _ => rfl

/-- What every operation issues is one of its traces. -/
theorem exec_issued {i : Instr} {s t : State} (h : exec i s = .next t) :
    ∃ evs, Issued s evs t ∧ allowedTraffic i s evs := by
  rcases exec_cases i s t h with ⟨st, y, rfl, hi, -⟩ | ⟨g, rfl, -, rfl⟩ | ⟨r, rfl, -, rfl⟩ | ⟨ch, mux, rfl, -, rfl⟩ |
    ⟨p, mux, rfl, -, rfl⟩ | ⟨sel, thr, mux, hi, rfl, -, -, rfl⟩ | ⟨rfl, rfl⟩
  · exact ⟨[], issued_nil rfl, allowedTraffic_nil hi s⟩
  · exact ⟨[], issued_nil rfl, rfl⟩
  · exact ⟨[], issued_nil rfl, rfl⟩
  · obtain ⟨cfg, evs, hevs, htrace⟩ := readPath_issued mux s
    exact ⟨evs, hevs, .inr ⟨cfg, htrace⟩⟩
  · obtain ⟨cfg, evs, hevs, htrace⟩ := readPath_issued mux s
    exact ⟨evs, hevs, .inr ⟨cfg, htrace⟩⟩
  · obtain ⟨cfg, ok, evs, hevs, htrace⟩ := armPath_issued mux hi s
    exact ⟨evs, hevs, .inr ⟨hi, cfg, ok, htrace⟩⟩
  · exact ⟨_, convertAndRead_issued s, rfl⟩

/-! ## No retries (42_protocol R94) -/

/-- Legal pointers are distinct (30_encoding R50). -/
theorem ptrOf_injective {T : CodecTables} (hT : tablesWf T) : Function.Injective (ptrOf T) := by
  obtain ⟨-, -, -, -, -, -, -, -, -, -, -, hptrs, -⟩ := hT
  have hall : ∀ r : Reg, r ∈ [Reg.conv, .config, .loThresh, .hiThresh] := fun r => by cases r <;> decide
  have hnodup : ([Reg.conv, .config, .loThresh, .hiThresh].map (ptrOf T)).Nodup := hptrs
  exact fun r q h => List.inj_on_of_nodup_map hnodup (hall r) (hall q) h

/-- At most one write a pointer, at most one read, and only the last event may have failed. -/
def IssuedOnce (evs : List Event) : Prop :=
  (∀ p, (evs.filter (Event.writesTo p)).length ≤ 1) ∧ (evs.filter Event.isRead).length ≤ 1 ∧
    ∀ e ∈ evs.dropLast, e.failed = false

theorem issuedOnce_nil : IssuedOnce [] := by simp [IssuedOnce]

theorem issuedOnce_single (e : Event) : IssuedOnce [e] :=
  ⟨fun _ => List.length_filter_le _ _, List.length_filter_le _ _, by simp⟩

theorem issuedOnce_tail (s : State) : IssuedOnce [.wait s.delay, s.evR] := by
  simp [IssuedOnce, List.filter_cons]

/-- The tail of a read path writes nothing, so the write before it is the only one. -/
theorem issuedOnce_read (s : State) (cfg : Word) : IssuedOnce [s.evW .config cfg true, .wait s.delay, s.evR] := by
  refine ⟨fun p => ?_, by simp [List.filter_cons], by simp⟩
  have htail : [.wait s.delay, s.evR].filter (Event.writesTo p) = [] := by simp
  rw [← List.singleton_append, List.filter_append, htail, List.append_nil]
  exact List.length_filter_le _ [_]

/-- The two writes of the comparator path go to distinct pointers. -/
theorem issuedOnce_arm {s : State} (hT : tablesWf s.params.tables) (hi cfg : Word) (ok : Bool) :
    IssuedOnce [s.evW .hiThresh hi true, s.evW .config cfg ok] := by
  have hne : ptrOf s.params.tables .hiThresh ≠ ptrOf s.params.tables .config := (ptrOf_injective hT).ne (by decide)
  refine ⟨fun p => ?_, by simp, by simp⟩
  by_cases hp : ptrOf s.params.tables .hiThresh = p
  · have hconfig : ptrOf s.params.tables .config ≠ p := fun h => hne (hp.trans h.symm)
    simp [hp, hconfig]
  · rw [List.filter_cons_of_neg (by simpa using hp)]
    exact List.length_filter_le _ [_]

theorem allowedTraffic_issuedOnce {i : Instr} {s : State} {evs : List Event} (hT : tablesWf s.params.tables)
    (h : allowedTraffic i s evs) : IssuedOnce evs := by
  cases i with
  | readSe | readDiff =>
    obtain rfl | ⟨cfg, rfl | rfl⟩ := h
    · exact issuedOnce_nil
    · exact issuedOnce_single _
    · exact issuedOnce_read s cfg
  | startComparator =>
    obtain rfl | ⟨hi, cfg, ok, rfl | rfl⟩ := h
    · exact issuedOnce_nil
    · exact issuedOnce_single _
    · exact issuedOnce_arm hT hi cfg ok
  | getLastConversion =>
    obtain rfl : evs = _ := h
    exact issuedOnce_tail s
  | _ =>
    obtain rfl : evs = [] := h
    exact issuedOnce_nil

/-! ## The device registers (20_memory R29, log 9) -/

theorem regKey_ne {s : State} (hT : tablesWf s.params.tables) {r q : Reg} (h : r ≠ q) : s.regKey r ≠ s.regKey q :=
  fun he => (ptrOf_injective hT).ne h (devKey_ptr_inj _ _ _ _ he)

theorem convertAndRead_devRegs (s : State) : (convertAndRead s).devRegs = s.devRegs := by
  rw [convertAndRead_eq]

/-- A read path stores at most `CONFIG`. -/
theorem readPath_devRegs_read {s : State} {key : Nat} (h : key ≠ s.regKey .config) (mux : Word) :
    (readPath mux s).devRegs.read key = s.devRegs.read key := by
  obtain ⟨cfg, ⟨st, y, -, he, -⟩ | ⟨-, he⟩⟩ := readPath_form mux s
  · rw [he]
    exact Memory.read_write_other _ _ _ _ h
  · rw [he]
    exact devAfterWrite_read_other _ _ _ _ _ h

/-- The comparator path stores at most `HI_THRESH` and `CONFIG`. -/
theorem armPath_devRegs_read {s : State} {key : Nat} (h : key ≠ s.regKey .config) (h2 : key ≠ s.regKey .hiThresh)
    (mux hi : Word) : (armPath mux hi s).devRegs.read key = s.devRegs.read key := by
  obtain ⟨cfg, ⟨ok, -, -, he⟩ | ⟨-, he⟩⟩ := armPath_form mux hi s
  · rw [he]
    exact (devAfterWrite_read_other _ _ _ _ _ h).trans (Memory.read_write_other _ _ _ _ h2)
  · rw [he]
    exact devAfterWrite_read_other _ _ _ _ _ h2

/-- Everything an operation can have stored: nothing, at most `CONFIG` for a read, and at most `CONFIG` and `HI_THRESH` for
a comparator. -/
theorem exec_devRegs {i : Instr} {s t : State} (h : exec i s = .next t) :
    t.devRegs = s.devRegs ∨
    ((∃ n, i = .readSe n ∨ i = .readDiff n) ∧
      ∀ key, key ≠ s.regKey .config → t.devRegs.read key = s.devRegs.read key) ∨
    ((∃ sel thr, i = .startComparator sel thr) ∧
      ∀ key, key ≠ s.regKey .config → key ≠ s.regKey .hiThresh → t.devRegs.read key = s.devRegs.read key) := by
  rcases exec_cases i s t h with ⟨st, y, rfl, -⟩ | ⟨g, -, -, rfl⟩ | ⟨r, -, -, rfl⟩ | ⟨ch, mux, rfl, -, rfl⟩ |
    ⟨p, mux, rfl, -, rfl⟩ | ⟨sel, thr, mux, hi, rfl, -, -, rfl⟩ | ⟨-, rfl⟩
  · exact .inl rfl
  · exact .inl rfl
  · exact .inl rfl
  · exact .inr (.inl ⟨⟨ch, .inl rfl⟩, fun key hkey => readPath_devRegs_read hkey mux⟩)
  · exact .inr (.inl ⟨⟨p, .inr rfl⟩, fun key hkey => readPath_devRegs_read hkey mux⟩)
  · exact .inr (.inr ⟨⟨sel, thr, rfl⟩, fun key hkey hkey2 => armPath_devRegs_read hkey hkey2 mux hi⟩)
  · exact .inl (convertAndRead_devRegs s)

/-! ## The statements of 42_protocol R94, R96 and R98 -/

/-- Settles O38: an operation that is not sequenced writes the ports or the field its setter names, and a sequenced one the
ports and the log. -/
theorem onlySettersWriteHandleFields : Obligations.OnlySettersWriteHandleFields := by
  intro i s t h
  cases hi : i.isSequenced with
  | false =>
    rcases exec_not_sequenced hi h with ⟨st, y, rfl⟩ | ⟨g, rfl, rfl⟩ | ⟨r, rfl, rfl⟩
    · exact ⟨rfl, rfl, rfl, rfl, absurd rfl, absurd rfl⟩
    · exact ⟨rfl, rfl, rfl, rfl, fun _ => ⟨rfl, rfl⟩, absurd rfl⟩
    · exact ⟨rfl, rfl, rfl, rfl, absurd rfl, fun _ => ⟨rfl, rfl⟩⟩
  | true =>
    obtain ⟨⟨evs, st, y, hhandle⟩, -⟩ := exec_sequenced hi h
    rw [hhandle]
    exact ⟨rfl, rfl, rfl, rfl, absurd rfl, absurd rfl⟩

/-- Settles O40: what an operation issues is one of its traces. -/
theorem trafficOfEachOperation : Obligations.TrafficOfEachOperation := by
  intro i s t h
  obtain ⟨evs, hissued, hallowed⟩ := exec_issued h
  exact ⟨evs, hissued.log, hallowed⟩

/-- Settles O41: each of the traces issues a transaction at most once, and only its last event can have failed. -/
theorem noRetries : Obligations.NoRetries := by
  intro i s t evs hT h hlog
  obtain ⟨issued, hissued, hallowed⟩ := exec_issued h
  obtain rfl : issued = evs := List.append_cancel_left (hissued.log.symm.trans hlog)
  obtain ⟨hwrites, hreads, hlast⟩ := allowedTraffic_issuedOnce hT hallowed
  exact ⟨hwrites, hreads, hlast, hissued.failure⟩

/-- Settles O42: an operation stored nothing, or it is of the kind that stores at the named keys. -/
theorem deviceRegisterFrame : Obligations.DeviceRegisterFrame := by
  intro i s t key h
  rcases exec_devRegs h with he | ⟨⟨n, hi⟩, hread⟩ | ⟨⟨sel, thr, rfl⟩, hread⟩
  · rw [he]
    exact ⟨fun _ => rfl, fun _ _ => rfl, fun _ _ _ => rfl, fun _ => rfl⟩
  · refine ⟨?_, fun _ => hread key, ?_, fun hT => hread _ (regKey_ne hT (by decide))⟩
    · rcases hi with rfl | rfl <;> simp [Instr.isSequenced]
    · rcases hi with rfl | rfl <;> simp
  · exact ⟨by simp [Instr.isSequenced], by simp, fun _ => hread key,
      fun hT => hread _ (regKey_ne hT (by decide)) (regKey_ne hT (by decide))⟩

end Sys2Proof.Machine
end

section
/-! Operations that are refused before any bus traffic (60_exceptions R100, R103 to R106): where an operand is not accepted,
the machine ends with the operand's status and nothing but the ports and the phase has changed. -/

namespace Sys2Proof.Machine

/-! ## An input that does not resolve (30_encoding R56) -/

theorem exec_readOf_refused {s : State} {sel : Selector} {e : Status} (h : resolveInput s.params sel = .error e) :
    exec (readOf sel) s = .next (s.ended e none) := by
  rw [exec_readOf, h]
  rfl

theorem exec_startComparator_refused {s : State} {sel : Selector} {e : Status} (h : resolveInput s.params sel = .error e)
    (thr : Word) : exec (.startComparator sel thr) s = .next (s.ended e none) := by
  rw [exec_startComparator, h]
  rfl

/-! ## The builders, in the order in which they check their operands (60_exceptions R106) -/

/-- Both builders end with a status that the operands raise whatever the kind's fixed bits are. -/
theorem exec_builders_refused {s : State} {g : Nat} {sel : Selector} {r : Nat} {e : Status}
    (h : ∀ b, buildConfig b s.params g sel r = .error e) :
    exec (.buildReadConfig g sel r) s = .next (s.ended e none) ∧
      exec (.buildComparatorConfig g sel r) s = .next (s.ended e none) := by
  rw [exec_buildReadConfig, exec_buildComparatorConfig, h, h, State.conclude_error]
  exact ⟨rfl, rfl⟩

theorem buildConfig_of_gain_gt {g : Nat} (hg : g > 5) (P : Params) (sel : Selector) (r : Nat) (b : FixedBits) :
    buildConfig b P g sel r = .error .invalidOperand :=
  if_pos hg

theorem buildConfig_of_input_refused {P : Params} {g : Nat} {sel : Selector} {e : Status} (hg : g ≤ 5)
    (h : resolveInput P sel = .error e) (r : Nat) (b : FixedBits) : buildConfig b P g sel r = .error e := by
  rw [buildConfig, if_neg (by omega), h]

theorem buildConfig_of_rate_gt {P : Params} {g : Nat} {sel : Selector} {r : Nat} {mux : Word} (hg : g ≤ 5)
    (h : resolveInput P sel = .ok mux) (hr : r > 7) (b : FixedBits) : buildConfig b P g sel r = .error .invalidOperand := by
  rw [buildConfig, if_neg (by omega), h]
  exact if_pos hr

/-! ## Operands that are out of range -/

theorem exec_packGain_of_gt {g : Nat} (hg : g > 5) (s : State) :
    exec (.packGain g) s = .next (s.ended .invalidOperand none) := by
  rw [exec_packGain, packGain, if_pos hg, State.conclude_error]

theorem exec_packRate_refused {s : State} {n i : Nat} (h : ∀ v, variantOf n = some v → rateCount v ≤ i) :
    exec (.packRate n i) s = .next (s.ended .invalidOperand none) := by
  rw [exec_packRate, packRate_refused _ n i h, State.conclude_error]

theorem exec_decodeResult_of_gt {k : Nat} (hk : k > 15) (raw : Word) (s : State) :
    exec (.decodeResult k raw) s = .next (s.ended .invalidOperand none) := by
  rw [exec_decodeResult, decodeResult, if_pos hk, State.conclude_error]

theorem exec_encodeThreshold_of_gt {k : Nat} (hk : k > 15) (t : Word) (s : State) :
    exec (.encodeThreshold k t) s = .next (s.ended .invalidOperand none) := by
  rw [exec_encodeThreshold, encodeThreshold, if_pos hk, State.conclude_error]

/-- A threshold outside the range of `16 - shift` signed bits is refused (40_codec R70). -/
theorem encodeThreshold_of_outside {k : Nat} {t : Word} (hk : k ≤ 15)
    (h : t.toInt < -(2 ^ (15 - k) : Int) ∨ t.toInt > (2 ^ (15 - k) : Int) - 1) :
    encodeThreshold k t = .error .thresholdOutOfRange := by
  refine encodeThreshold_error k t hk ?_
  rw [← Bool.not_eq_true, thresholdFits_iff]
  omega

/-! ## The statements of 60_exceptions R100 and R103 to R105 -/

/-- Settles O6: an accepted word meets a row, so the decoder rejects this one, and the step ends as for any rejected word. -/
theorem illegalWordRaisesIllegalOperation : Obligations.IllegalWordRaisesIllegalOperation := by
  intro s cmd d hs hno
  rw [step_present s cmd d hs]
  cases hdecode : decode cmd d with
  | error e => exact runWord_of_error hdecode s
  | ok i =>
    obtain ⟨haccepted, -, -⟩ := decoderAcceptsExactlyTheTable cmd d
    obtain ⟨row, hrow, -, hmeets⟩ := haccepted i hdecode
    exact absurd hmeets (hno row hrow)

/-- Settles O30: a channel above 3 does not resolve, and the operations that take a channel resolve it first, the builders
after the gain. -/
theorem invalidChannelChangesNothing : Obligations.InvalidChannelChangesNothing := by
  intro s ch hch
  have hinput : resolveInput s.params (.se ch) = .error .invalidChannel := packInputSe_error _ ch hch
  refine ⟨?_, exec_readOf_refused hinput, exec_startComparator_refused hinput,
    fun g r hg => exec_builders_refused (buildConfig_of_input_refused hg hinput r)⟩
  rw [exec_packInputSe, packInputSe_error _ ch hch, State.conclude_error]

/-- Settles O31, by the operand: a gain, a pair, a variant or its rate, a rate to store, a rate code, a shift. -/
theorem invalidOperandChangesNothing : Obligations.InvalidOperandChangesNothing := by
  intro s
  refine ⟨fun g hg => ?_, fun p hp => ?_, fun v i hvi => ?_, fun i hi => ?_, fun g sel r mux hg hT hsel hr => ?_,
    fun k w hk => ⟨exec_decodeResult_of_gt hk w s, exec_encodeThreshold_of_gt hk w s⟩⟩
  · exact ⟨exec_packGain_of_gt hg s, exec_setGain_of_gt hg s,
      fun sel r => exec_builders_refused (buildConfig_of_gain_gt hg s.params sel r)⟩
  · have hinput : resolveInput s.params (.diff p) = .error .invalidOperand := packInputDiff_error _ p hp
    refine ⟨?_, exec_readOf_refused hinput, exec_startComparator_refused hinput, fun g r => exec_builders_refused ?_⟩
    · rw [exec_packInputDiff, packInputDiff_error _ p hp, State.conclude_error]
    · rcases Nat.lt_or_ge 5 g with hg | hg
      · exact buildConfig_of_gain_gt hg s.params (.diff p) r
      · exact buildConfig_of_input_refused hg hinput r
  · refine exec_packRate_refused fun variant hv => ?_
    rcases hvi with hv1 | ⟨rfl, hi⟩ | ⟨rfl, hi⟩
    · rw [variantOf_eq_none hv1] at hv
      cases hv
    · cases hv
      exact hi
    · cases hv
      exact hi
  · refine exec_setRate_of_ge ?_
    cases hv : s.h.variant with
    | lowRes => rwa [hv] at hi
    | highRes => rwa [hv] at hi
  · exact exec_builders_refused (buildConfig_of_rate_gt hg (resolveInput_of_code hT hsel) hr)

/-- Settles O32: both operations encode the threshold, `START_COMPARATOR` with the `LowRes` shift once its input has
resolved. -/
theorem thresholdOutOfRangeChangesNothing : Obligations.ThresholdOutOfRangeChangesNothing := by
  refine fun s t => ⟨fun k hk hout => ?_, fun sel mux hT hsel hlow hout => ?_⟩
  · rw [exec_encodeThreshold, encodeThreshold_of_outside hk hout, State.conclude_error]
  · have hthr : encodeThreshold (shiftOf s.h.variant) t = .error .thresholdOutOfRange := by
      rw [hlow]
      exact encodeThreshold_of_outside (by decide) hout
    rw [exec_startComparator, resolveInput_of_code hT hsel]
    dsimp only
    rw [hthr]
    rfl

end Sys2Proof.Machine
end

section
/-! Bus transactions that fail (60_exceptions R101, R102): each bus path as the one state it leaves. -/

namespace Sys2Proof.Machine

/-! ## The bus paths with a failed transaction -/

theorem devAfterWrite_of_failed {a : WriteAnswer} (h : a.ok = false) (m : Memory) (key : Nat) (v : Word) :
    devAfterWrite m key v a = if a.takenAnyway = true then m.write key v else m := by
  rw [devAfterWrite, h, Bool.false_or]

/-- The configuration write fails, and the path ends there (42_protocol R90, R91). -/
theorem readPath_of_write_failed {s : State} (h : s.writeAnswer.ok = false) {pga dr : BitVec 3}
    (hcodes : handleCodes s pga dr) (mux : BitVec 3) :
    let cfg := kindWord s.params.tables.readFixed mux pga dr
    readPath (positioned mux 12) s = { s with
      h := Machine.ended (s.h.logged [s.evW .config cfg false]) .busWriteFailed none
      devRegs := if s.writeAnswer.takenAnyway = true then s.devRegs.write (s.regKey .config) cfg else s.devRegs
      env := useWrite s.env } := by
  rw [readPath_eq, handleConfig_eq _ s mux pga dr hcodes]
  exact if_neg (by simp [h])

/-- The threshold write fails, and the configuration is not written (42_protocol R92). -/
theorem armPath_of_write_failed {s : State} (h : s.writeAnswer.ok = false) (mux hi : Word) : armPath mux hi s = { s with
    h := Machine.ended (s.h.logged [s.evW .hiThresh hi false]) .busWriteFailed none
    devRegs := if s.writeAnswer.takenAnyway = true then s.devRegs.write (s.regKey .hiThresh) hi else s.devRegs
    env := useWrite s.env } := by
  rw [armPath_eq]
  exact if_neg (by simp [h])

theorem readOk_eq_false_iff (a : ReadAnswer) : readOk a = false ↔ a.acked = false ∨ a.byteCount ≠ 2 := by
  rw [readOk, Bool.and_eq_false_iff, beq_eq_false_iff_ne]

/-- The tail with a failed read (42_protocol R89). -/
theorem convertAndRead_of_read_failed {s : State} (h : readOk s.readAnswer = false) : convertAndRead s = { s with
    h := Machine.ended (s.h.logged [.wait s.delay, s.evR]) .busReadFailed none
    env := useRead (useWait s.env)
    elapsed := s.elapsed + s.delay + s.waitExtra } := by
  simp only [convertAndRead_eq, h, Bool.false_eq_true, if_false]

/-- The whole read path with its write answered and its read failed. -/
theorem readPath_of_read_failed {s : State} (hw : s.writeAnswer.ok = true) (hr : readOk s.readAnswer = false)
    {pga dr : BitVec 3} (hcodes : handleCodes s pga dr) (mux : BitVec 3) : readPath (positioned mux 12) s = { s with
      h := Machine.ended
        (s.h.logged [s.evW .config (kindWord s.params.tables.readFixed mux pga dr) true, .wait s.delay, s.evR])
        .busReadFailed none
      devRegs := s.devRegs.write (s.regKey .config) (kindWord s.params.tables.readFixed mux pga dr)
      env := useRead (useWait (useWrite s.env))
      elapsed := s.elapsed + s.delay + s.waitExtra } := by
  rw [readPath_of_write_ok hw, handleConfig_eq _ s mux pga dr hcodes,
    convertAndRead_of_read_failed (by rwa [State.busWrite_readAnswer])]
  apply State.ext <;> simp [hw, State.evW]

/-- `READ_SE` and `READ_DIFF` on an input that exists run the read path. -/
theorem exec_read_of_code {s : State} {i : Instr} {mux : BitVec 3} (hT : tablesWf s.params.tables)
    (h : (∃ ch, i = .readSe ch ∧ s.params.tables.muxSe[ch]? = some mux) ∨
      ∃ p, i = .readDiff p ∧ selCode s.params (.diff p) = some mux) :
    exec i s = .next (readPath (positioned mux 12) s) := by
  rcases h with ⟨ch, rfl, hmux⟩ | ⟨p, rfl, hmux⟩
  · exact exec_readOf_of_code (sel := .se ch) hT hmux
  · exact exec_readOf_of_code (sel := .diff p) hT hmux

/-! ## The statements of 60_exceptions R101 and R102 -/

/-- Settles O33: the operands are accepted, so the path runs and ends at the write that fails. -/
theorem failedWriteEndsTheOperation : Obligations.FailedWriteEndsTheOperation := by
  refine fun s mux pga dr hT hcodes => ⟨fun hw i hi => ?_, fun sel thr hi hsel hthr => ⟨fun hw => ?_, fun hw hw2 => ?_⟩⟩
  · rw [exec_read_of_code hT hi, readPath_of_write_failed hw hcodes]
  · rw [exec_startComparator_of_operands hT hsel hthr, armPath_of_write_failed hw]
  · rw [exec_startComparator_of_operands hT hsel hthr, armPath_of_write_ok hw hcodes, devAfterWrite_of_failed hw2, hw2]
    rfl

/-- Settles O34: both kinds of failed read are a read that is not ok, with which the tail ends. -/
theorem failedReadDiscardsTheValue : Obligations.FailedReadDiscardsTheValue := by
  intro s hfailed
  have hr : readOk s.readAnswer = false := (readOk_eq_false_iff _).2 hfailed
  refine ⟨?_, fun i mux pga dr hT hcodes hw hi => ?_⟩
  · rw [exec_getLastConversion, convertAndRead_of_read_failed hr]
  · rw [exec_read_of_code hT hi, readPath_of_read_failed hw hr hcodes]

end Sys2Proof.Machine
end

section
/-! What holds of the errors of every operation (60_exceptions R99, R107): which statuses an operation can end with, and what
it leaves where it ends with an error; and that it leaves the other handles (R113). -/

namespace Sys2Proof.Machine

/-! ## The errors of the pure functions (40_codec) -/

theorem packGain_eq_error {T : CodecTables} {g : Nat} {e : Status} (h : packGain T g = .error e) : e = .invalidOperand := by
  unfold packGain at h
  split at h <;> cases h
  rfl

theorem packInputSe_eq_error {T : CodecTables} {ch : Nat} {e : Status} (h : packInputSe T ch = .error e) :
    e = .invalidChannel := by
  unfold packInputSe at h
  split at h <;> cases h
  rfl

theorem packInputDiff_eq_error {P : Params} {p : Nat} {e : Status} (h : packInputDiff P p = .error e) :
    e = .invalidOperand := by
  unfold packInputDiff at h
  split at h
  · cases h
    rfl
  · split at h <;> cases h
    rfl

/-- An input that does not resolve raises its kind's status. -/
theorem resolveInput_eq_error {P : Params} {sel : Selector} {e : Status} (h : resolveInput P sel = .error e) :
    e = selError sel := by
  cases sel with
  | se ch => exact packInputSe_eq_error h
  | diff p => exact packInputDiff_eq_error h

theorem packRate_eq_error {T : CodecTables} {n i : Nat} {e : Status} (h : packRate T n i = .error e) :
    e = .invalidOperand := by
  unfold packRate at h
  split at h
  · cases h
    rfl
  · split at h <;> cases h
    rfl

theorem buildConfig_eq_error {b : FixedBits} {P : Params} {g : Nat} {sel : Selector} {r : Nat} {e : Status}
    (h : buildConfig b P g sel r = .error e) : e = .invalidOperand ∨ e = selError sel := by
  unfold buildConfig at h
  split at h
  · cases h
    exact .inl rfl
  · split at h
    · cases h
      exact .inr (resolveInput_eq_error ‹_›)
    · split at h <;> cases h
      exact .inl rfl

theorem decodeResult_eq_error {k : Nat} {raw : Word} {e : Status} (h : decodeResult k raw = .error e) :
    e = .invalidOperand := by
  unfold decodeResult at h
  split at h <;> cases h
  rfl

theorem encodeThreshold_eq_error {k : Nat} {t : Word} {e : Status} (h : encodeThreshold k t = .error e) :
    (e = .invalidOperand ∧ k > 15) ∨ e = .thresholdOutOfRange := by
  unfold encodeThreshold at h
  split at h
  · cases h
    exact .inl ⟨rfl, ‹_›⟩
  · split at h <;> cases h
    exact .inr rfl

/-- A variant's shift is in range, so only the threshold itself can be refused (42_protocol R92). -/
theorem encodeThreshold_shiftOf_eq_error {v : Variant} {t : Word} {e : Status}
    (h : encodeThreshold (shiftOf v) t = .error e) : e = .thresholdOutOfRange := by
  rcases encodeThreshold_eq_error h with ⟨-, hgt⟩ | he
  · exact absurd (shiftOf_le v) (by omega)
  · exact he

/-! ## Which errors an operation can end with (60_exceptions R99) -/

/-- The errors that 60_exceptions R99 lets an operation raise, read by operation instead of by status. -/
def errorsOf : Instr → List Status
  | .packGain _ | .packInputDiff _ | .packRate _ _ | .decodeResult _ _ | .setGain _ | .setRate _ => [.invalidOperand]
  | .packInputSe _ => [.invalidChannel]
  | .buildReadConfig _ sel _ | .buildComparatorConfig _ sel _ => [.invalidOperand, selError sel]
  | .encodeThreshold _ _ => [.invalidOperand, .thresholdOutOfRange]
  | .readSe _ => [.invalidChannel, .busWriteFailed, .busReadFailed]
  | .readDiff _ => [.invalidOperand, .busWriteFailed, .busReadFailed]
  | .startComparator sel _ => [selError sel, .thresholdOutOfRange, .busWriteFailed]
  | .getLastConversion => [.busReadFailed]
  | .samplesPerSecond | .bitShift | .rateRegisterBits | .conversionDelay | .getGain | .getRate | .getAddress => []

/-- The operation that led to the state has ended, with `OK` or with one of the errors. -/
def EndsWith (errors : List Status) (t : State) : Prop := ∃ st ∈ Status.ok :: errors, t.h.status = some st

theorem endsWith_ok {errors : List Status} {t : State} (h : t.h.status = some .ok) : EndsWith errors t :=
  ⟨.ok, List.mem_cons_self, h⟩

theorem endsWith_error {errors : List Status} {e : Status} {t : State} (he : e ∈ errors) (h : t.h.status = some e) :
    EndsWith errors t :=
  ⟨e, List.mem_cons_of_mem _ he, h⟩

theorem endsWith_conclude {errors : List Status} {r : Except Status Word} (h : ∀ e, r = .error e → e ∈ errors)
    (s : State) : EndsWith errors (s.conclude r) := by
  cases r with
  | ok v => exact endsWith_ok rfl
  | error e => exact endsWith_error (h e rfl) rfl

theorem convertAndRead_endsWith {errors : List Status} (h : .busReadFailed ∈ errors) (s : State) :
    EndsWith errors (convertAndRead s) := by
  obtain ⟨st, y, he, ⟨rfl, -, -⟩ | ⟨rfl, -, -⟩⟩ := convertAndRead_form s
  · exact endsWith_ok (by rw [he]; rfl)
  · exact endsWith_error h (by rw [he]; rfl)

theorem readPath_endsWith {errors : List Status} (hw : .busWriteFailed ∈ errors) (hr : .busReadFailed ∈ errors)
    (mux : Word) (s : State) : EndsWith errors (readPath mux s) := by
  obtain ⟨cfg, ⟨st, y, -, he, ⟨rfl, -, -⟩ | ⟨rfl, -, -⟩⟩ | ⟨-, he⟩⟩ := readPath_form mux s
  · exact endsWith_ok (by rw [he]; rfl)
  · exact endsWith_error hr (by rw [he]; rfl)
  · exact endsWith_error hw (by rw [he]; rfl)

theorem armPath_endsWith {errors : List Status} (hw : .busWriteFailed ∈ errors) (mux hi : Word) (s : State) :
    EndsWith errors (armPath mux hi s) := by
  obtain ⟨cfg, ⟨ok, -, -, he⟩ | ⟨-, he⟩⟩ := armPath_form mux hi s
  · cases ok with
    | true => exact endsWith_ok (by rw [he]; rfl)
    | false => exact endsWith_error hw (by rw [he]; rfl)
  · exact endsWith_error hw (by rw [he]; rfl)

/-- Every operation ends with `OK` or one of its errors, by the function that checks its operands and the path it runs. -/
theorem exec_endsWith {i : Instr} {s t : State} (h : exec i s = .next t) : EndsWith (errorsOf i) t := by
  cases i <;> injection h with h <;> subst h
  case packGain => exact endsWith_conclude (fun e he => by simp [errorsOf, packGain_eq_error he]) s
  case packInputSe => exact endsWith_conclude (fun e he => by simp [errorsOf, packInputSe_eq_error he]) s
  case packInputDiff => exact endsWith_conclude (fun e he => by simp [errorsOf, packInputDiff_eq_error he]) s
  case packRate => exact endsWith_conclude (fun e he => by simp [errorsOf, packRate_eq_error he]) s
  case buildReadConfig | buildComparatorConfig =>
    exact endsWith_conclude (fun e he => by simpa [errorsOf] using buildConfig_eq_error he) s
  case decodeResult => exact endsWith_conclude (fun e he => by simp [errorsOf, decodeResult_eq_error he]) s
  case encodeThreshold =>
    exact endsWith_conclude (fun e he => by simpa [errorsOf] using (encodeThreshold_eq_error he).imp_left And.left) s
  case samplesPerSecond | bitShift | rateRegisterBits | conversionDelay | getGain | getRate | getAddress =>
    exact endsWith_ok rfl
  case setGain | setRate =>
    split
    · exact endsWith_error (by simp [errorsOf]) rfl
    · exact endsWith_ok rfl
  case readSe ch =>
    cases hmux : packInputSe s.params.tables ch with
    | ok mux => exact readPath_endsWith (by simp [errorsOf]) (by simp [errorsOf]) mux s
    | error e => exact endsWith_error (by simp [errorsOf, packInputSe_eq_error hmux]) rfl
  case readDiff p =>
    cases hmux : packInputDiff s.params p with
    | ok mux => exact readPath_endsWith (by simp [errorsOf]) (by simp [errorsOf]) mux s
    | error e => exact endsWith_error (by simp [errorsOf, packInputDiff_eq_error hmux]) rfl
  case startComparator sel thr =>
    cases hmux : resolveInput s.params sel with
    | error e => exact endsWith_error (by simp [errorsOf, resolveInput_eq_error hmux]) rfl
    | ok mux =>
      cases hthr : encodeThreshold (shiftOf s.h.variant) thr with
      | ok hi => exact armPath_endsWith (by simp [errorsOf]) mux hi s
      | error e => exact endsWith_error (by simp [errorsOf, encodeThreshold_shiftOf_eq_error hthr]) rfl
  case getLastConversion => exact convertAndRead_endsWith (by simp [errorsOf]) s

/-! ## Which operations raise a status, the table read by status (60_exceptions R99) -/

theorem invalidChannel_mem_errorsOf {i : Instr} (h : .invalidChannel ∈ errorsOf i) :
    (∃ ch, i = .packInputSe ch ∨ i = .readSe ch) ∨ (∃ ch thr, i = .startComparator (.se ch) thr) ∨
      ∃ g ch r, i = .buildReadConfig g (.se ch) r ∨ i = .buildComparatorConfig g (.se ch) r := by
  cases i with
  | packInputSe ch => exact .inl ⟨ch, .inl rfl⟩
  | readSe ch => exact .inl ⟨ch, .inr rfl⟩
  | startComparator sel thr =>
    cases sel with
    | se ch => exact .inr (.inl ⟨ch, thr, rfl⟩)
    | diff p => simp [errorsOf, selError] at h
  | buildReadConfig g sel r =>
    cases sel with
    | se ch => exact .inr (.inr ⟨g, ch, r, .inl rfl⟩)
    | diff p => simp [errorsOf, selError] at h
  | buildComparatorConfig g sel r =>
    cases sel with
    | se ch => exact .inr (.inr ⟨g, ch, r, .inr rfl⟩)
    | diff p => simp [errorsOf, selError] at h
  | _ => simp [errorsOf] at h

theorem busWriteFailed_mem_errorsOf {i : Instr} (h : .busWriteFailed ∈ errorsOf i) :
    (∃ n, i = .readSe n ∨ i = .readDiff n) ∨ ∃ sel thr, i = .startComparator sel thr := by
  cases i with
  | readSe ch => exact .inl ⟨ch, .inl rfl⟩
  | readDiff p => exact .inl ⟨p, .inr rfl⟩
  | startComparator sel thr => exact .inr ⟨sel, thr, rfl⟩
  | buildReadConfig g sel r | buildComparatorConfig g sel r => cases sel <;> simp [errorsOf, selError] at h
  | _ => simp [errorsOf] at h

theorem busReadFailed_mem_errorsOf {i : Instr} (h : .busReadFailed ∈ errorsOf i) :
    (∃ n, i = .readSe n ∨ i = .readDiff n) ∨ i = .getLastConversion := by
  cases i with
  | readSe ch => exact .inl ⟨ch, .inl rfl⟩
  | readDiff p => exact .inl ⟨p, .inr rfl⟩
  | getLastConversion => exact .inr rfl
  | buildReadConfig g sel r | buildComparatorConfig g sel r | startComparator sel thr =>
    cases sel <;> simp [errorsOf, selError] at h
  | _ => simp [errorsOf] at h

theorem thresholdOutOfRange_mem_errorsOf {i : Instr} (h : .thresholdOutOfRange ∈ errorsOf i) :
    (∃ k w, i = .encodeThreshold k w) ∨ ∃ sel thr, i = .startComparator sel thr := by
  cases i with
  | encodeThreshold k w => exact .inl ⟨k, w, rfl⟩
  | startComparator sel thr => exact .inr ⟨sel, thr, rfl⟩
  | buildReadConfig g sel r | buildComparatorConfig g sel r => cases sel <;> simp [errorsOf, selError] at h
  | _ => simp [errorsOf] at h

theorem invalidOperand_mem_errorsOf {i : Instr} (h : .invalidOperand ∈ errorsOf i) :
    (∃ g, i = .packGain g ∨ i = .setGain g) ∨ (∃ p, i = .packInputDiff p ∨ i = .readDiff p) ∨
      (∃ v r, i = .packRate v r) ∨ (∃ r, i = .setRate r) ∨
      (∃ g sel r, i = .buildReadConfig g sel r ∨ i = .buildComparatorConfig g sel r) ∨
      (∃ k w, i = .decodeResult k w ∨ i = .encodeThreshold k w) ∨ ∃ p thr, i = .startComparator (.diff p) thr := by
  cases i with
  | packGain g => exact .inl ⟨g, .inl rfl⟩
  | setGain g => exact .inl ⟨g, .inr rfl⟩
  | packInputDiff p => exact .inr (.inl ⟨p, .inl rfl⟩)
  | readDiff p => exact .inr (.inl ⟨p, .inr rfl⟩)
  | packRate v r => exact .inr (.inr (.inl ⟨v, r, rfl⟩))
  | setRate r => exact .inr (.inr (.inr (.inl ⟨r, rfl⟩)))
  | buildReadConfig g sel r => exact .inr (.inr (.inr (.inr (.inl ⟨g, sel, r, .inl rfl⟩))))
  | buildComparatorConfig g sel r => exact .inr (.inr (.inr (.inr (.inl ⟨g, sel, r, .inr rfl⟩))))
  | decodeResult k w => exact .inr (.inr (.inr (.inr (.inr (.inl ⟨k, w, .inl rfl⟩)))))
  | encodeThreshold k w => exact .inr (.inr (.inr (.inr (.inr (.inl ⟨k, w, .inr rfl⟩)))))
  | startComparator sel thr =>
    cases sel with
    | se ch => simp [errorsOf, selError] at h
    | diff p => exact .inr (.inr (.inr (.inr (.inr (.inr ⟨p, thr, rfl⟩)))))
  | _ => simp [errorsOf] at h

/-- `IllegalOperation` is the decoder's alone (60_exceptions R103). -/
theorem illegalOperation_not_mem_errorsOf (i : Instr) : .illegalOperation ∉ errorsOf i := by
  cases i with
  | buildReadConfig g sel r | buildComparatorConfig g sel r | startComparator sel thr =>
    cases sel <;> simp [errorsOf, selError]
  | _ => simp [errorsOf]

/-! ## Status codes (60_exceptions R99) -/

theorem statusOfCode_code (st : Status) : statusOfCode st.code = some st := by
  cases st <;> rfl

theorem code_of_statusOfCode {c : Byte} {st : Status} (h : statusOfCode c = some st) : st.code = c := by
  have hfound := List.find?_some h
  exact beq_iff_eq.1 hfound

/-! ## What an error leaves (60_exceptions R107) -/

/-- An operation that is not sequenced and ends with an error only wrote the ports: a setter that stores its index
succeeds. -/
theorem exec_not_sequenced_error {i : Instr} {s t : State} (hi : i.isSequenced = false) (h : exec i s = .next t)
    (hne : t.h.status ≠ some .ok) : ∃ st y, t = s.ended st y := by
  rcases exec_not_sequenced hi h with hended | ⟨g, -, rfl⟩ | ⟨r, -, rfl⟩
  · exact hended
  · exact absurd rfl hne
  · exact absurd rfl hne

/-- Where an operation ends with an error, its handle has gained events and the ports are written, and nothing else of it
is. -/
theorem exec_error_handle {i : Instr} {s t : State} (h : exec i s = .next t) (hne : t.h.status ≠ some .ok) :
    ∃ evs st y, t.h = Machine.ended (s.h.logged evs) st y := by
  cases hi : i.isSequenced with
  | true => exact (exec_sequenced hi h).handle
  | false =>
    obtain ⟨st, y, rfl⟩ := exec_not_sequenced_error hi h hne
    exact ⟨[], st, y, by rw [Handle.logged_nil]; rfl⟩

/-! ## The statements of 60_exceptions R99, R107 and R113 -/

/-- Settles O35: each code names its status back, and each operation ends with `OK` or one of its errors. -/
theorem statusCodesAndWhoRaisesThem : Obligations.StatusCodesAndWhoRaisesThem := by
  refine ⟨rfl, statusOfCode_code, fun c st => code_of_statusOfCode, fun i s t h => ?_⟩
  obtain ⟨st, hmem, hst⟩ := exec_endsWith h
  have herror : st ≠ .ok → st ∈ errorsOf i := (List.mem_cons.1 hmem).resolve_left
  refine ⟨st, hst, ?_, ?_, ?_, ?_, ?_, ?_⟩
  · rintro rfl
    exact invalidChannel_mem_errorsOf (herror (by decide))
  · rintro rfl
    exact busWriteFailed_mem_errorsOf (herror (by decide))
  · rintro rfl
    exact busReadFailed_mem_errorsOf (herror (by decide))
  · rintro rfl
    exact thresholdOutOfRange_mem_errorsOf (herror (by decide))
  · rintro rfl
    exact invalidOperand_mem_errorsOf (herror (by decide))
  · rintro rfl
    exact illegalOperation_not_mem_errorsOf i (herror (by decide))

/-- Settles O36: the handle ended with its log extended, and a completed operation has a value only beside `OK`. -/
theorem errorLeavesTheHandle : Obligations.ErrorLeavesTheHandle := by
  intro i s t e h hst he
  have hdone := exec_completed i s t h
  have hne : t.h.status ≠ some .ok := by rw [hst]; simpa using he
  have hy : t.h.result = none := by_contra fun hy => hne (hdone.result.1 hy).1
  obtain ⟨evs, st, y, hhandle⟩ := exec_error_handle h hne
  rw [hhandle] at hst hy
  obtain rfl : st = e := Option.some.inj hst
  obtain rfl : y = none := hy
  exact ⟨⟨evs, hhandle⟩, hdone.params, hdone.requests, hdone.peers⟩

/-- Settles O55: the operation ran with handle `k` in front and left the handles behind it, and was put back. -/
theorem otherHandlesAreUntouched : Obligations.OtherHandlesAreUntouched := by
  intro i s t k j h hk ht hjk hj
  obtain ⟨target, htarget⟩ := Option.ne_none_iff_exists'.1 hk
  obtain ⟨u, hu, rfl⟩ := (onHandle_next k (exec i) s t).1 ht
  rw [State.swap_swap_handle s u k target htarget (exec_completed i _ u hu).peers j, if_neg hjk]
  exact hj

end Sys2Proof.Machine
end

section
/-! Reset and creation (70_reset_and_hazards R116): a created handle is the one its arguments name, and reset is the creation
of handle 0. -/

namespace Sys2Proof.Machine

/-! ## Creation -/

theorem step_create {s : State} {v : Variant} {addr : BitVec 7} {bus : Nat} {rest : List Request}
    (h : s.requests = .create v addr bus :: rest) :
    step s = .next (createPeer v addr bus { s with requests := rest }) := by
  rw [step, stepState, h]

theorem createPeer_of_mem {s : State} {addr : BitVec 7} (h : addr ∈ s.params.tables.addrs) (v : Variant) (bus : Nat) :
    createPeer v addr bus s = { s with peers := s.peers ++ [newHandle s.params v addr bus] } := by
  rw [createPeer, createHandle, if_pos h]

theorem createPeer_of_not_mem {s : State} {addr : BitVec 7} (h : addr ∉ s.params.tables.addrs) (v : Variant) (bus : Nat) :
    createPeer v addr bus s = s := by
  rw [createPeer, createHandle, if_neg h]

/-! ## The default rate (41_variant_tables R75) -/

/-- The default rate of a variant, as 41_variant_tables R75 writes it. -/
theorem defaultSps_eq (v : Variant) : defaultSps v = if v = .lowRes then 1600 else 128 := by
  cases v <;> rfl

/-- The default index is where the variant's table holds its default rate. -/
theorem spsList_defaultRate {T : CodecTables} (hT : tablesWf T) (v : Variant) :
    (spsList T v)[defaultRate T v]? = some (defaultSps v) := by
  obtain ⟨-, -, -, -, -, -, hmem, -⟩ := tablesWf_ratesWf T v hT
  exact List.getElem?_idxOf hmem

theorem defaultRate_defaultTables (v : Variant) : defaultRate defaultTables v = 4 := by
  cases v <;> rfl

/-! ## The state after reset -/

theorem defaultParams_wf : paramsWf defaultParams := by decide

theorem State.reset_inv : State.reset.Inv := by
  refine ⟨defaultParams_wf, fun h hh => ?_, State.reset_devRegs_wf⟩
  rw [List.mem_singleton.1 hh]
  exact newHandle_ok defaultParams resetVariant resetAddr resetTransport defaultParams_wf (by decide)

theorem State.reset_allIdle : State.reset.allIdle := fun h hh => by
  rw [List.mem_singleton.1 hh]
  rfl

/-! ## The statements of 70_reset_and_hazards R116 -/

/-- Settles O56: a strapped address adds the new handle, whose rate index is where the table holds the default rate; any other
address adds none. -/
theorem creationSetsTheHandle : Obligations.CreationSetsTheHandle := by
  intro s v a bus rest hT hreq
  rw [step_create hreq]
  refine ⟨fun ha => ?_, fun ha => ⟨defaultRate s.params.tables v, ?_, ?_, fun hdefault => ?_⟩⟩
  · exact congrArg Host.Outcome.next (createPeer_of_not_mem (s := { s with requests := rest }) ha v bus)
  · exact congrArg Host.Outcome.next (createPeer_of_mem (s := { s with requests := rest }) ha v bus)
  · rw [spsList_defaultRate hT, defaultSps_eq]
  · rw [hdefault, defaultRate_defaultTables]

/-- Settles O57: reset is a creation with a strapped address under the default parameters. -/
theorem resetIsLegalAndIdle : Obligations.ResetIsLegalAndIdle :=
  ⟨State.reset_inv, State.reset_allIdle, rfl, rfl, rfl, rfl, rfl, defaultRate_defaultTables resetVariant⟩

end Sys2Proof.Machine
end

section
/-! Holds (70_reset_and_hazards R123, R124): an operation waits while a handle on its bus is in the middle of another, which
each held step moves one transition nearer to its end. -/

namespace Sys2Proof.Machine

/-! ## How far an operation is from its end -/

/-- The most transitions that an operation in the phase still has to make (10_state R21; log 1). -/
def transitionsLeft : Phase → Nat
  | .idle => 0
  | .configuring (.readConfig _) => 3
  | .configuring (.armHigh _ _) => 2
  | .configuring (.armConfig _) => 1
  | .converting => 2
  | .reading => 1

theorem transitionsLeft_le (p : Phase) : transitionsLeft p ≤ 3 := by
  unfold transitionsLeft
  split <;> decide

theorem transitionsLeft_eq_zero {p : Phase} (h : transitionsLeft p = 0) : p = .idle :=
  match p, h with
  | .idle, _ => rfl

/-- Each transition that 10_state R21 lists uses up one. -/
theorem transitionsLeft_of_allowed {p q : Phase} (h : allowedTransition p q) :
    transitionsLeft q ≤ transitionsLeft p - 1 :=
  match p, q, h with
  | _, .idle, _ => Nat.zero_le _
  | .configuring (.readConfig _), .converting, _ => le_refl 2
  | .configuring (.armHigh _ _), .configuring (.armConfig _), _ => le_refl 1
  | .converting, .reading, _ => le_refl 1

theorem advance_iterate_transitionsLeft (s : State) (n : Nat) :
    transitionsLeft (advance^[n] s).h.phase ≤ transitionsLeft s.h.phase - n := by
  induction n with
  | zero => exact le_rfl
  | succ n ih =>
    have hone := transitionsLeft_of_allowed (advance_transition (advance^[n] s)).phase
    rw [Function.iterate_succ_apply']
    omega

theorem advance_iterate_requests (s : State) (n : Nat) : (advance^[n] s).requests = s.requests := by
  induction n with
  | zero => rfl
  | succ n ih => rw [Function.iterate_succ_apply', (advance_transition _).requests, ih]

/-! ## The step that holds an operation -/

/-- Handle 0 comes first among the handles in progress. -/
theorem State.firstBusy_front {s : State} (h : s.h.phase ≠ .idle) {pick : Handle → Bool} (hp : pick s.h = true) :
    s.firstBusy pick = some 0 := by
  have hbusy : busy s.h = true := by simpa [busy] using h
  rw [State.firstBusy, List.findIdx?_cons, hbusy, hp]
  rfl

/-- Presented to handle 0 in the middle of an operation, a request is held, and that operation makes its transition. -/
theorem serve_busy_front {s : State} (h : s.h.phase ≠ .idle) (rest : List Request)
    (run : State → Host.Outcome State Fault Refusal) : serve 0 rest run s = .next (advance s) := by
  have hfirst := State.firstBusy_front h (pick := fun other => other.transport == s.h.transport) (beq_self_eq_true _)
  simp only [serve, State.handle, hfirst, resume, onHandle_zero]

/-- A transition of one handle leaves every other handle as it was (60_exceptions R113). -/
theorem handle_advance_swap {s : State} {j k : Nat} {other h : Handle} (hj : s.handle j = some other) (hne : k ≠ j)
    (hk : s.handle k = some h) : ((advance (s.swap j)).swap j).handle k = some h := by
  rw [State.swap_swap_handle s _ j other hj (advance_transition _).peers k, if_neg hne, hk]

/-! ## The statements of 70_reset_and_hazards R123 and R124 -/

/-- Settles O53: handle 0 is the first in progress, and no phase is more than three transitions from Idle. -/
theorem operationIsHeldUntilIdle : Obligations.OperationIsHeldUntilIdle := by
  refine fun s hs => ⟨fun cmd d rest hreq => ⟨?_, (advance_transition s).requests⟩, ?_, advance_iterate_requests s 3⟩
  · rw [step_operation hreq, serve_busy_front hs]
  · have hleft := advance_iterate_transitionsLeft s 3
    have hmost := transitionsLeft_le s.h.phase
    exact transitionsLeft_eq_zero (by omega)

/-- Settles O54: on a busy bus the step is a transition of a handle that is neither Idle nor on another bus; on a free one it
serves the request. -/
theorem sharedBusHoldsTheOperation : Obligations.SharedBusHoldsTheOperation := by
  intro s k target cmd d rest hreq hk
  rw [step_operation hreq]
  refine ⟨fun ⟨i, blocker, hi, hbus, hbusy⟩ => ?_, fun hfree => ?_⟩
  · obtain ⟨j, other, hj, hphase, htransport, hstep⟩ := serve_held k rest (runWord cmd d) s target hk
      fun hidle => hbusy (hidle blocker ((s.mem_handles blocker).2 ⟨i, hi⟩) hbus)
    have hadvance := advance_transition (s.swap j)
    refine ⟨_, hstep, ?_, ?_, fun n h hn hidle => handle_advance_swap hj ?_ hn⟩
    · rw [State.swap_requests, hadvance.requests, State.swap_requests]
    · rw [State.swap_params, hadvance.params, State.swap_params]
    · rintro rfl
      obtain rfl : other = h := Option.some.inj (hj.symm.trans hn)
      exact hidle.elim hphase (absurd htransport)
  · refine serve_free k rest _ s target hk fun h hh => ?_
    obtain ⟨j, hj⟩ := (s.mem_handles h).1 hh
    exact hfree j h hj

end Sys2Proof.Machine
end

section
/-! Hazards between operations (70_reset_and_hazards R119 to R122, R125): what stands in `CONFIG` after each bus path, and how
a read of `CONV` follows the conversion time. -/

namespace Sys2Proof.Machine

/-! ## The conversion time -/

/-- From `s` to `t` the bus log gained these events, and nothing was read, or the read came last, right after a wait of the
handle's conversion delay, and that time has passed (70_reset_and_hazards R119, R125). -/
structure ReadsAfterDelay (s : State) (evs : List Event) (t : State) : Prop where
  log : t.log = s.log ++ evs
  read : (∀ e ∈ evs, e.isRead = false) ∨
    (∃ before, evs = before ++ [.wait s.delay, s.evR]) ∧ t.elapsed ≥ s.elapsed + s.delay

theorem readsAfterDelay_nil {s t : State} (h : t.log = s.log) : ReadsAfterDelay s [] t :=
  ⟨by rw [h, List.append_nil], .inl (by simp)⟩

theorem convertAndRead_readsAfterDelay (s : State) : ∃ evs, ReadsAfterDelay s evs (convertAndRead s) := by
  rw [convertAndRead_eq]
  exact ⟨_, rfl, .inr ⟨⟨[], rfl⟩, Nat.le_add_right _ _⟩⟩

theorem readPath_readsAfterDelay (mux : Word) (s : State) : ∃ evs, ReadsAfterDelay s evs (readPath mux s) := by
  obtain ⟨cfg, ⟨st, y, -, he, -⟩ | ⟨-, he⟩⟩ := readPath_form mux s
  · rw [he]
    exact ⟨_, rfl, .inr ⟨⟨[s.evW .config cfg true], rfl⟩, Nat.le_add_right _ _⟩⟩
  · rw [he]
    exact ⟨_, rfl, .inl (by simp)⟩

theorem armPath_readsAfterDelay (mux hi : Word) (s : State) : ∃ evs, ReadsAfterDelay s evs (armPath mux hi s) := by
  obtain ⟨cfg, ⟨ok, -, -, he⟩ | ⟨-, he⟩⟩ := armPath_form mux hi s
  · rw [he]
    exact ⟨_, rfl, .inl (by simp)⟩
  · rw [he]
    exact ⟨_, rfl, .inl (by simp)⟩

theorem exec_readsAfterDelay {i : Instr} {s t : State} (h : exec i s = .next t) : ∃ evs, ReadsAfterDelay s evs t := by
  rcases exec_cases i s t h with ⟨st, y, rfl, -⟩ | ⟨g, -, -, rfl⟩ | ⟨r, -, -, rfl⟩ | ⟨ch, mux, -, -, rfl⟩ |
    ⟨p, mux, -, -, rfl⟩ | ⟨sel, thr, mux, hi, -, -, -, rfl⟩ | ⟨-, rfl⟩
  · exact ⟨[], readsAfterDelay_nil rfl⟩
  · exact ⟨[], readsAfterDelay_nil rfl⟩
  · exact ⟨[], readsAfterDelay_nil rfl⟩
  · exact readPath_readsAfterDelay mux s
  · exact readPath_readsAfterDelay mux s
  · exact armPath_readsAfterDelay mux hi s
  · exact convertAndRead_readsAfterDelay s

/-! ## What stands in `CONFIG` -/

/-- A handle writes to the same registers of the same device after an operation as before (10_state R17, R18). -/
theorem exec_regKey {i : Instr} {s t : State} (h : exec i s = .next t) (r : Reg) : t.regKey r = s.regKey r := by
  obtain ⟨-, haddr, htransport, -⟩ := onlySettersWriteHandleFields i s t h
  rw [State.regKey, State.regKey, haddr, htransport, (exec_completed i s t h).params]

theorem readPath_config {s : State} (h : s.writeAnswer.ok = true) (mux : Word) :
    (readPath mux s).devRegs.read (s.regKey .config) =
      some (handleConfig s.params.tables.readFixed s.params.tables s.h mux) := by
  rw [readPath_of_write_ok h, convertAndRead_devRegs, State.busWrite_devRegs, devAfterWrite_ok _ _ _ _ h,
    Memory.read_write_same]

/-- `READ_SE` whose write is answered stores the codes of its channel and of the handle's gain and rate. -/
theorem readSe_config {s t : State} {ch : Nat} {mux pga dr : BitVec 3} (h : exec (.readSe ch) s = .next t)
    (hT : tablesWf s.params.tables) (hmux : s.params.tables.muxSe[ch]? = some mux) (hcodes : handleCodes s pga dr)
    (hw : s.writeAnswer.ok = true) :
    t.devRegs.read (s.regKey .config) = some (kindWord s.params.tables.readFixed mux pga dr) := by
  rw [exec_read_of_code hT (.inl ⟨ch, rfl, hmux⟩)] at h
  cases h
  rw [readPath_config hw, handleConfig_eq _ s mux pga dr hcodes]

theorem write_ok_of_readPath_ok {s : State} {mux : Word} (h : (readPath mux s).h.status = some .ok) :
    s.writeAnswer.ok = true := by
  obtain ⟨cfg, ⟨st, y, hw, -⟩ | ⟨-, he⟩⟩ := readPath_form mux s
  · exact hw
  · rw [he] at h
    cases h

/-- A comparator path that ends with `OK` wrote both registers, `CONFIG` last. -/
theorem armPath_config {s : State} {mux hi : Word} (h : (armPath mux hi s).h.status = some .ok) :
    (armPath mux hi s).devRegs.read (s.regKey .config) =
      some (handleConfig s.params.tables.compFixed s.params.tables s.h mux) := by
  rw [armPath_eq] at h ⊢
  cases hw : s.writeAnswer.ok with
  | false => simp [hw, Machine.ended] at h
  | true =>
    cases hw2 : (s.busWrite .hiThresh hi).writeAnswer.ok with
    | false => simp [hw, hw2, Machine.ended] at h
    | true => simp [hw2]

/-! ## The kind of the word in `CONFIG` -/

theorem selError_ne_ok (sel : Selector) : selError sel ≠ .ok := by
  cases sel <;> simp [selError]

/-- A read that ends with `OK` ran the read path on its input. -/
theorem exec_readOf_ok {s t : State} {sel : Selector} (h : exec (readOf sel) s = .next t) (hok : t.h.status = some .ok) :
    ∃ mux, resolveInput s.params sel = .ok mux ∧ t = readPath mux s := by
  rw [exec_readOf] at h
  cases hmux : resolveInput s.params sel with
  | ok mux =>
    rw [hmux] at h
    cases h
    exact ⟨mux, rfl, rfl⟩
  | error e =>
    rw [hmux] at h
    cases h
    obtain rfl : e = .ok := Option.some.inj hok
    exact absurd (resolveInput_eq_error hmux).symm (selError_ne_ok sel)

/-- A comparator start that ends with `OK` ran the comparator path on its input: a refusal of an operand is no `OK`. -/
theorem exec_startComparator_ok {s t : State} {sel : Selector} {thr : Word}
    (h : exec (.startComparator sel thr) s = .next t) (hok : t.h.status = some .ok) :
    ∃ mux hi, resolveInput s.params sel = .ok mux ∧ t = armPath mux hi s := by
  rcases exec_cases _ s t h with ⟨st, y, rfl, -, -, hst⟩ | ⟨g, heq, -⟩ | ⟨r, heq, -⟩ | ⟨ch, mux, heq, -⟩ | ⟨p, mux, heq, -⟩ |
    ⟨sel', thr', mux, hi, heq, hmux, -, rfl⟩ | ⟨heq, -⟩
  · obtain ⟨-, hvalue, -⟩ := hst (Option.some.inj hok)
    cases hvalue
  · cases heq
  · cases heq
  · cases heq
  · cases heq
  · cases heq
    exact ⟨mux, hi, hmux, rfl⟩
  · cases heq

/-- A word has the conversion mode and the comparator queue of a kind (40_codec R74). -/
structure HasKind (b : FixedBits) (w : Word) : Prop where
  mode : (fieldsOf w).mode = b.mode
  cque : (fieldsOf w).cque = b.cque

theorem hasKind_kindWord (b : FixedBits) (mux pga dr : BitVec 3) : HasKind b (kindWord b mux pga dr) := by
  constructor <;> rw [kindWord, fieldsOf_configWord]

/-- The word written for an input that exists is of the path's kind, whatever the handle's gain and rate. -/
theorem hasKind_handleConfig {P : Params} (hT : tablesWf P.tables) {sel : Selector} {mux : Word}
    (h : resolveInput P sel = .ok mux) (b : FixedBits) (hd : Handle) :
    HasKind b (handleConfig b P.tables hd mux) := by
  rw [resolveInput_eq P sel hT] at h
  cases hsel : selCode P sel with
  | none =>
    rw [hsel] at h
    cases h
  | some code =>
    rw [hsel] at h
    cases h
    rw [handleConfig, gainField, rateField, fixedWord_or]
    exact hasKind_kindWord b _ _ _

/-- The two kinds of word are distinct (40_codec R74). -/
theorem hasKind_ne {T : CodecTables} (hT : tablesWf T) {comp read : Word} (hcomp : HasKind T.compFixed comp)
    (hread : HasKind T.readFixed read) : comp ≠ read := by
  obtain ⟨-, -, -, -, -, -, -, -, -, hmode, -⟩ := hT
  rintro rfl
  exact hmode (hread.mode.symm.trans hcomp.mode)

/-- An armed comparator's word stands in `CONFIG`. -/
theorem startComparator_config {s t : State} {sel : Selector} {thr : Word} (hT : tablesWf s.params.tables)
    (h : exec (.startComparator sel thr) s = .next t) (hok : t.h.status = some .ok) :
    ∃ comp, t.devRegs.read (s.regKey .config) = some comp ∧ HasKind s.params.tables.compFixed comp := by
  obtain ⟨mux, hi, hmux, rfl⟩ := exec_startComparator_ok h hok
  exact ⟨_, armPath_config hok, hasKind_handleConfig hT hmux _ _⟩

/-- After a read that succeeded its word stands in `CONFIG`. -/
theorem readOf_config {s t : State} {sel : Selector} (hT : tablesWf s.params.tables)
    (h : exec (readOf sel) s = .next t) (hok : t.h.status = some .ok) :
    ∃ read, t.devRegs.read (s.regKey .config) = some read ∧ HasKind s.params.tables.readFixed read := by
  obtain ⟨mux, hmux, rfl⟩ := exec_readOf_ok h hok
  exact ⟨_, readPath_config (write_ok_of_readPath_ok hok) mux, hasKind_handleConfig hT hmux _ _⟩

/-- `GET_LAST_CONVERSION` writes no register. -/
theorem getLastConversion_devRegs {s t : State} (h : exec .getLastConversion s = .next t) : t.devRegs = s.devRegs := by
  rw [exec_getLastConversion] at h
  cases h
  exact convertAndRead_devRegs s

/-! ## The statements of 70_reset_and_hazards R119 to R122 and R125 -/

/-- Settles O44: of the events of any operation, a read is the last. -/
theorem readComesAfterTheConversionTime : Obligations.ReadComesAfterTheConversionTime := by
  rintro i s t evs h hlog ⟨e, he, hread⟩
  obtain ⟨evs', hlog', hcases⟩ := exec_readsAfterDelay h
  obtain rfl : evs' = evs := List.append_cancel_left (hlog'.symm.trans hlog)
  refine hcases.resolve_left fun hnone => ?_
  rw [hnone e he] at hread
  cases hread

/-- Settles O45: the setters store the two indices in the handle alone, and the read path writes the codes that the handle
then has. -/
theorem settingsTakeEffectAtTheNextWrite : Obligations.SettingsTakeEffectAtTheNextWrite := by
  intro s t g n ch mux pga dr hT hg hn hmux hgain hrate hw
  refine ⟨_, _, exec_setGain_of_le hg s, exec_setRate_of_lt hn, rfl, rfl, fun h => ?_⟩
  have hstored := readSe_config h hT hmux ⟨hgain, hrate⟩ hw
  exact hstored

/-- Settles O46: what stands in `CONFIG` is of the comparator kind until a read has written a word of its own kind. -/
theorem readReplacesTheComparatorConfiguration : Obligations.ReadReplacesTheComparatorConfiguration := by
  intro s t sel thr hT h hok
  obtain ⟨comp, hcomp, hkind⟩ := startComparator_config hT h hok
  refine ⟨comp, hcomp, hkind.mode, hkind.cque, fun u hu => by rw [getLastConversion_devRegs hu, hcomp],
    fun u v sel' hu hread hvok => ?_⟩
  have hframe : u.params = s.params ∧ u.regKey .config = s.regKey .config := by
    have hparams := (exec_completed _ s t h).params
    rcases hu with rfl | hu
    · exact ⟨hparams, exec_regKey h _⟩
    · exact ⟨(exec_completed _ t u hu).params.trans hparams, (exec_regKey hu _).trans (exec_regKey h _)⟩
  obtain ⟨hparams, hkey⟩ := hframe
  obtain ⟨read, hstored, hreadKind⟩ := readOf_config (hparams ▸ hT) hread hvok
  rw [hkey] at hstored
  rw [hparams] at hreadKind
  exact ⟨read, hstored, hasKind_ne hT hkind hreadKind, hreadKind.mode, hreadKind.cque⟩

/-- Settles O47: the tail reads the rate that the setter has stored, and writes no register. -/
theorem lastConversionWaitsAtTheNewRate : Obligations.LastConversionWaitsAtTheNewRate := by
  intro s t u n hn hset hlast
  rw [exec_setRate_of_lt hn] at hset
  cases hset
  rw [exec_getLastConversion, convertAndRead_eq] at hlast
  cases hlast
  exact ⟨rfl, Nat.le_add_right _ _, _, rfl⟩

end Sys2Proof.Machine
end
